-- ==== Sys2Proof/Word.lean ====
section
/-! DEFINITION. The bit-vector types of the CHIP-8 core (10_state.md, 30_encoding.md rule R56). -/

namespace Sys2Proof

/-- An 8-bit value: a general register, a timer, a byte of `MEM`, a literal `kk`. -/
abbrev Byte := BitVec 8

/-- A 16-bit value: an opcode, `PC`, `I`, a return address. -/
abbrev Word := BitVec 16

/-- A 4-bit field of an opcode (R56: `op`, `x`, `y`, `n`). -/
abbrev Nibble := BitVec 4

/-- A 4-bit register index; every value names a register (R11). -/
abbrev RegIdx := BitVec 4

/-- The 12-bit address operand `nnn` (R56). -/
abbrev Addr := BitVec 12

/-- The flag register's index (R12). -/
abbrev vF : RegIdx := 15

end Sys2Proof
end

