-- ==== Sys2Proof/Syntax.lean ====
section
/-! DEFINITION. The 35 instruction variants of 30_encoding.md rule R60, one constructor per row, each with the operands
its format carries (R57). -/

namespace Sys2Proof

/-- A decoded instruction. Constructors are in the order of R60; names are the document's variant names. -/
inductive Instr where
  /-- `00E0` (R126) -/
  | clearScreen
  /-- RETURN `00EE` (R82) -/
  | ret
  /-- `0nnn` but for the two constants (R175) -/
  | sys (nnn : Addr)
  /-- `1nnn` (R80) -/
  | jump (nnn : Addr)
  /-- `2nnn` (R81) -/
  | call (nnn : Addr)
  /-- `3xkk` (R91) -/
  | skipIfEqualByte (x : RegIdx) (kk : Byte)
  /-- `4xkk` (R92) -/
  | skipIfNotEqualByte (x : RegIdx) (kk : Byte)
  /-- `5xy?`, the low nibble neither tested nor carried (R93, R63) -/
  | skipIfRegistersEqual (x y : RegIdx)
  /-- `6xkk` (R102) -/
  | loadByte (x : RegIdx) (kk : Byte)
  /-- `7xkk` (R103) -/
  | addByte (x : RegIdx) (kk : Byte)
  /-- `8xy0` (R104) -/
  | load (x y : RegIdx)
  /-- `8xy1` (R105) -/
  | or (x y : RegIdx)
  /-- `8xy2` (R106) -/
  | and (x y : RegIdx)
  /-- `8xy3` (R107) -/
  | xor (x y : RegIdx)
  /-- `8xy4` (R108) -/
  | add (x y : RegIdx)
  /-- `8xy5` (R109) -/
  | sub (x y : RegIdx)
  /-- `8xy6`; `y` is carried and unused (R110) -/
  | shiftRight (x y : RegIdx)
  /-- `8xy7` (R111) -/
  | subn (x y : RegIdx)
  /-- `8xyE`; `y` is carried and unused (R112) -/
  | shiftLeft (x y : RegIdx)
  /-- `9xy?`, the low nibble neither tested nor carried (R94, R63) -/
  | skipIfRegistersNotEqual (x y : RegIdx)
  /-- `Annn` (R161) -/
  | loadIndex (nnn : Addr)
  /-- `Bnnn` (R83) -/
  | jumpWithOffset (nnn : Addr)
  /-- `Cxkk` (R121) -/
  | randomAndMask (x : RegIdx) (kk : Byte)
  /-- `Dxyn` (R127) -/
  | drawSprite (x y : RegIdx) (n : Nibble)
  /-- `Ex9E` (R141) -/
  | skipIfKeyPressed (x : RegIdx)
  /-- `ExA1` (R142) -/
  | skipIfKeyNotPressed (x : RegIdx)
  /-- `Fx07` (R150) -/
  | loadDelay (x : RegIdx)
  /-- `Fx0A` (R143) -/
  | blockWaitForKey (x : RegIdx)
  /-- `Fx15` (R151) -/
  | setDelay (x : RegIdx)
  /-- `Fx18` (R152) -/
  | setSound (x : RegIdx)
  /-- `Fx1E` (R163) -/
  | addToIndex (x : RegIdx)
  /-- `Fx29` (R164) -/
  | loadFontAddress (x : RegIdx)
  /-- `Fx33` (R165) -/
  | storeBcdDigits (x : RegIdx)
  /-- `Fx55` (R166) -/
  | storeRegistersToMemory (x : RegIdx)
  /-- `Fx65` (R167) -/
  | loadRegistersFromMemory (x : RegIdx)
  deriving DecidableEq, Repr

end Sys2Proof
end

