-- ==== Sys2Proof/WellFormed.lean ====
section
/-! DEFINITION. Which terms of `Instr` are instructions of the hardware. Operand widths are in the types, so one check is
left: SYS covers every `0nnn` except 0x00E0 and 0x00EE, which are other instructions (30_encoding.md rules R59, R64). -/

namespace Sys2Proof

/-- The check, as a Bool. -/
def Instr.wellFormed : Instr → Bool
  | .sys nnn => nnn != 0x0E0#12 && nnn != 0x0EE#12
  | .clearScreen | .ret | .jump _ | .call _ | .skipIfEqualByte _ _ | .skipIfNotEqualByte _ _
  | .skipIfRegistersEqual _ _ | .loadByte _ _ | .addByte _ _ | .load _ _ | .or _ _ | .and _ _ | .xor _ _ | .add _ _
  | .sub _ _ | .shiftRight _ _ | .subn _ _ | .shiftLeft _ _ | .skipIfRegistersNotEqual _ _ | .loadIndex _
  | .jumpWithOffset _ | .randomAndMask _ _ | .drawSprite _ _ _ | .skipIfKeyPressed _ | .skipIfKeyNotPressed _
  | .loadDelay _ | .blockWaitForKey _ | .setDelay _ | .setSound _ | .addToIndex _ | .loadFontAddress _
  | .storeBcdDigits _ | .storeRegistersToMemory _ | .loadRegistersFromMemory _ => true

/-- `i` is an instruction some opcode stands for. -/
abbrev Instr.WellFormed (i : Instr) : Prop := i.wellFormed = true

end Sys2Proof
end

