-- ==== Sys2Proof/Decode.lean ====
section
/-! DEFINITION. The decoder of 30_encoding.md rule R59, total on all 65536 words and on any bytes, and after it the
encoder of rule R60 (ignored fields assemble as 0, rule R67). -/

namespace Sys2Proof

/-- Bits 15 to 12, the family (R56). -/
def opField (w : Word) : Nibble := w.extractLsb' 12 4

/-- Bits 11 to 8 (R56). -/
def xField (w : Word) : RegIdx := w.extractLsb' 8 4

/-- Bits 7 to 4 (R56). -/
def yField (w : Word) : RegIdx := w.extractLsb' 4 4

/-- Bits 3 to 0 (R56). -/
def nField (w : Word) : Nibble := w.extractLsb' 0 4

/-- Bits 7 to 0 (R56). -/
def kkField (w : Word) : Byte := w.extractLsb' 0 8

/-- Bits 11 to 0 (R56). -/
def nnnField (w : Word) : Addr := w.extractLsb' 0 12

/-- The decoder's two error verdicts (R61, R62), each carrying the offending word. -/
inductive DecodeError where
  /-- "a recoverable decode error carrying the offending value": an unknown family-E low byte (R202) -/
  | recoverable (w : Word)
  /-- "a fatal decode error": an unknown family-8 sub-opcode or family-F low byte (R203) -/
  | fatal (w : Word)
  deriving DecidableEq, Repr

/-- Family 8: the sub-opcode `n` selects one of nine operations (R59; the numbers but OR's are GK1, log 10). -/
def decodeFamily8 (w : Word) : Except DecodeError Instr :=
  let x := xField w
  let y := yField w
  match nField w with
  | 0x0#4 => .ok (.load x y)
  | 0x1#4 => .ok (.or x y)
  | 0x2#4 => .ok (.and x y)
  | 0x3#4 => .ok (.xor x y)
  | 0x4#4 => .ok (.add x y)
  | 0x5#4 => .ok (.sub x y)
  | 0x6#4 => .ok (.shiftRight x y)
  | 0x7#4 => .ok (.subn x y)
  | 0xE#4 => .ok (.shiftLeft x y)
  | _ => .error (.fatal w)

/-- Family E: the low byte selects a key skip (R59). -/
def decodeFamilyE (w : Word) : Except DecodeError Instr :=
  match kkField w with
  | 0x9E#8 => .ok (.skipIfKeyPressed (xField w))
  | 0xA1#8 => .ok (.skipIfKeyNotPressed (xField w))
  | _ => .error (.recoverable w)

/-- Family F: the low byte selects one of nine operations (R59; the numbers are GK2, log 10). -/
def decodeFamilyF (w : Word) : Except DecodeError Instr :=
  let x := xField w
  match kkField w with
  | 0x07#8 => .ok (.loadDelay x)
  | 0x0A#8 => .ok (.blockWaitForKey x)
  | 0x15#8 => .ok (.setDelay x)
  | 0x18#8 => .ok (.setSound x)
  | 0x1E#8 => .ok (.addToIndex x)
  | 0x29#8 => .ok (.loadFontAddress x)
  | 0x33#8 => .ok (.storeBcdDigits x)
  | 0x55#8 => .ok (.storeRegistersToMemory x)
  | 0x65#8 => .ok (.loadRegistersFromMemory x)
  | _ => .error (.fatal w)

/-- The family nibble selects the variant (R59), for a word that is neither of the two constants. -/
def decodeFamily (w : Word) : Except DecodeError Instr :=
  match opField w with
  | 0x0#4 => .ok (.sys (nnnField w))
  | 0x1#4 => .ok (.jump (nnnField w))
  | 0x2#4 => .ok (.call (nnnField w))
  | 0x3#4 => .ok (.skipIfEqualByte (xField w) (kkField w))
  | 0x4#4 => .ok (.skipIfNotEqualByte (xField w) (kkField w))
  | 0x5#4 => .ok (.skipIfRegistersEqual (xField w) (yField w))
  | 0x6#4 => .ok (.loadByte (xField w) (kkField w))
  | 0x7#4 => .ok (.addByte (xField w) (kkField w))
  | 0x8#4 => decodeFamily8 w
  | 0x9#4 => .ok (.skipIfRegistersNotEqual (xField w) (yField w))
  | 0xA#4 => .ok (.loadIndex (nnnField w))
  | 0xB#4 => .ok (.jumpWithOffset (nnnField w))
  | 0xC#4 => .ok (.randomAndMask (xField w) (kkField w))
  | 0xD#4 => .ok (.drawSprite (xField w) (yField w) (nField w))
  | 0xE#4 => decodeFamilyE w
  | _ => decodeFamilyF w

/-- The decode algorithm of R59: the two constants first, then the family. -/
def decodeWord (w : Word) : Except DecodeError Instr :=
  if w = 0x00E0#16 then .ok .clearScreen
  else if w = 0x00EE#16 then .ok .ret
  else decodeFamily w

/-- Why a sequence of bytes gives no instruction. -/
inductive ByteReject where
  /-- fewer than the two bytes of an opcode (R55) -/
  | tooShort
  /-- two bytes that decode to no variant (R61) -/
  | invalid (e : DecodeError)
  deriving DecidableEq, Repr

/-- Two bytes as an opcode, the first the high byte (R39, R40). -/
def wordOfBytes (hi lo : Byte) : Word := hi ++ lo

/-- The high byte of an opcode, which lies at the lower address (R40). -/
def hiByte (w : Word) : Byte := w.extractLsb' 8 8

/-- The low byte of an opcode, which lies at the higher address (R40). -/
def loByte (w : Word) : Byte := w.extractLsb' 0 8

/-- The instruction at the head of a byte sequence, and the bytes after it. -/
def decode : List Byte → Except ByteReject (Instr × List Byte)
  | hi :: lo :: rest =>
    match decodeWord (wordOfBytes hi lo) with
    | .ok i => .ok (i, rest)
    | .error e => .error (.invalid e)
  | _ => .error .tooShort

/-- The opcode of an instruction, from the patterns of R60; ignored fields are 0 (R67). -/
def encode : Instr → Word
  | .clearScreen => 0x00E0#16
  | .ret => 0x00EE#16
  | .sys nnn => 0x0#4 ++ nnn
  | .jump nnn => 0x1#4 ++ nnn
  | .call nnn => 0x2#4 ++ nnn
  | .skipIfEqualByte x kk => 0x3#4 ++ x ++ kk
  | .skipIfNotEqualByte x kk => 0x4#4 ++ x ++ kk
  | .skipIfRegistersEqual x y => 0x5#4 ++ x ++ y ++ 0x0#4
  | .loadByte x kk => 0x6#4 ++ x ++ kk
  | .addByte x kk => 0x7#4 ++ x ++ kk
  | .load x y => 0x8#4 ++ x ++ y ++ 0x0#4
  | .or x y => 0x8#4 ++ x ++ y ++ 0x1#4
  | .and x y => 0x8#4 ++ x ++ y ++ 0x2#4
  | .xor x y => 0x8#4 ++ x ++ y ++ 0x3#4
  | .add x y => 0x8#4 ++ x ++ y ++ 0x4#4
  | .sub x y => 0x8#4 ++ x ++ y ++ 0x5#4
  | .shiftRight x y => 0x8#4 ++ x ++ y ++ 0x6#4
  | .subn x y => 0x8#4 ++ x ++ y ++ 0x7#4
  | .shiftLeft x y => 0x8#4 ++ x ++ y ++ 0xE#4
  | .skipIfRegistersNotEqual x y => 0x9#4 ++ x ++ y ++ 0x0#4
  | .loadIndex nnn => 0xA#4 ++ nnn
  | .jumpWithOffset nnn => 0xB#4 ++ nnn
  | .randomAndMask x kk => 0xC#4 ++ x ++ kk
  | .drawSprite x y n => 0xD#4 ++ x ++ y ++ n
  | .skipIfKeyPressed x => 0xE#4 ++ x ++ 0x9E#8
  | .skipIfKeyNotPressed x => 0xE#4 ++ x ++ 0xA1#8
  | .loadDelay x => 0xF#4 ++ x ++ 0x07#8
  | .blockWaitForKey x => 0xF#4 ++ x ++ 0x0A#8
  | .setDelay x => 0xF#4 ++ x ++ 0x15#8
  | .setSound x => 0xF#4 ++ x ++ 0x18#8
  | .addToIndex x => 0xF#4 ++ x ++ 0x1E#8
  | .loadFontAddress x => 0xF#4 ++ x ++ 0x29#8
  | .storeBcdDigits x => 0xF#4 ++ x ++ 0x33#8
  | .storeRegistersToMemory x => 0xF#4 ++ x ++ 0x55#8
  | .loadRegistersFromMemory x => 0xF#4 ++ x ++ 0x65#8

/-- The two bytes of an instruction in address order (R40). -/
def encodeBytes (i : Instr) : List Byte := [hiByte (encode i), loByte (encode i)]

/-- The opcode a numbered row of the opcode table stands for: its low `nbits` bits are `w`'s, the others 0. -/
def tableWord (nbits w : Nat) : Word := BitVec.ofNat 16 (w % 2 ^ nbits)

/-- What the decoder reads from a row's word, laid out as the hardware stores it: high byte first. A word that needs more
than the 16 bits of an opcode (R55) is refused. -/
def decodeTableWord (nbits w : Nat) : Option Instr :=
  if w % 2 ^ nbits < 2 ^ 16 then
    match decode [hiByte (tableWord nbits w), loByte (tableWord nbits w)] with
    | .ok (i, _) => some i
    | .error _ => none
  else none

end Sys2Proof
end

