-- ==== Sys2Proof/Config.lean ====
section
/-! DEFINITION. The fixed sizes of 00_scope.md rule R5, the sprite edge policies of rule R128, and the free values of
rules R101 and R120. The parameters whose values a test could show wrong (the font bytes, the policy in force) stand in
Machine/Memory.lean and Machine/Operands.lean. -/

namespace Sys2Proof.Config

/-- `MEM_SIZE` (R5, R35). -/
abbrev memSize : Nat := 4096

/-- `PROG_BASE` (R5): the entry point and the place of the ROM. -/
abbrev progBase : Nat := 0x200

/-- `FONT_BASE` (R5, R37). -/
abbrev fontBase : Nat := 0x050

/-- `FONT_LEN` (R5, R37): 16 glyphs of 5 bytes. -/
abbrev fontLen : Nat := 80

/-- `NUM_REGS` (R5, R11). -/
abbrev numRegs : Nat := 16

/-- `STACK_DEPTH` (R5, R16): 16, decision D1, 90_conflicts.md C1. -/
abbrev stackDepth : Nat := 16

/-- `FB_W` (R5, R20). -/
abbrev screenWidth : Nat := 64

/-- `FB_H` (R5, R20). -/
abbrev screenHeight : Nat := 32

/-- `NUM_KEYS` (R5, R22). -/
abbrev numKeys : Nat := 16

/-- `DRAW_EDGE_POLICY` (R128): what DRAW-SPRITE does with cells beyond the right or bottom edge. -/
inductive EdgePolicy where
  /-- the instruction raises `FramebufferOutOfRange` (the spec's default, D8) -/
  | reject
  /-- such sprite pixels are dropped -/
  | clip
  /-- such sprite pixels wrap, column mod 64 and row mod 32 -/
  | wrap
  deriving DecidableEq, Repr

/-- FREE VALUE (log 1). The `k`-th byte the environment supplies: `rnd` of RANDOM-AND-MASK (R120, "No law binds `rnd`")
and `draw8()` of the five aliasing cases (R101). One sequence feeds both, as R8 allows, because no instruction uses both. -/
opaque freeByte : Nat → Byte

end Sys2Proof.Config
end

