-- ==== Sys2Proof/Machine/State.lean ====
section
/-! DEFINITION. The machine's state (10_state.md rule R10), its reset value (R25), and the reasons a step can stop. -/

namespace Sys2Proof.Machine

/-- `MEM` (R19, R35): the bytes that differ from their reset contents, as (address, byte) pairs with rising addresses
below 4096. Reads, writes and the canonical form are in Machine/Memory.lean. -/
abbrev Memory := List Host.Cell

/-- `FB[x][y]`: 64 columns of 32 cells (R20). -/
abbrev Screen := Vector (Vector Bool 32) 64

/-- The nine fault causes of 60_exceptions.md rule R200. -/
inductive Cause where
  /-- code 1 (R201): `PC ≥ 4095` when the step begins -/
  | fetchOutOfRange
  /-- code 2 (R202): the decoder's recoverable error -/
  | decodeError
  /-- code 3 (R203): the decoder's fatal error -/
  | decodeFatal
  /-- code 4 (R204): CALL with 16 return addresses held -/
  | stackOverflow
  /-- code 5 (R205): RETURN with none held -/
  | stackUnderflow
  /-- code 6 (R206): a data address above 4095 -/
  | memoryOutOfRange
  /-- code 7 (R207): a sprite past the right or bottom edge, policy `reject` -/
  | framebufferOutOfRange
  /-- code 8 (R208): a key skip on a value above 15 -/
  | keyIndexOutOfRange
  /-- code 9 (R209): LOAD-FONT-ADDRESS on a value above 15 -/
  | fontDigitOutOfRange
  deriving DecidableEq, Repr

/-- What the `FAULT` latch records (R23): the cause, the opcode fetched (absent when the fetch itself failed) and the
address the step began at. -/
structure FaultRecord where
  cause : Cause
  opcode : Option Word
  address : Word
  deriving DecidableEq, Repr

/-- The machine's state. Every field but the last is a row of R10. -/
structure State where
  /-- `V[0..15]` (R11); `V[15]` is the flag register (R12) -/
  v : Vector Byte 16
  /-- `I` (R13) -/
  index : Word
  /-- `PC` (R14) -/
  pc : Word
  /-- `SP` (R15) -/
  sp : Byte
  /-- `STACK[0..15]` (R16) -/
  stack : Vector Word 16
  /-- `DT` (R17) -/
  dt : Byte
  /-- `ST` (R18) -/
  st : Byte
  /-- `MEM` (R19) -/
  mem : Memory
  /-- `FB` (R20) -/
  fb : Screen
  /-- `REDRAW` (R21) -/
  redraw : Bool
  /-- `KEYS[0..15]` (R22) -/
  keys : Vector Bool 16
  /-- `FAULT` (R23) -/
  fault : Option FaultRecord
  /-- The model's own: how many free bytes have been consumed (log 1). It stands for the step inputs `rnd` and `draw` of
  R192 and is no register of the hardware. -/
  draws : Nat
  deriving DecidableEq, Repr

/-- The state after construction, the only reset (R25, R230): zero and off, `PC` = 0x200, `REDRAW` set. Memory lists
nothing, so every byte reads as its reset contents, the font included (R231). -/
def State.reset : State where
  v := Vector.replicate 16 0
  index := 0
  pc := 0x200#16
  sp := 0
  stack := Vector.replicate 16 0
  dt := 0
  st := 0
  mem := []
  fb := Vector.replicate 64 (Vector.replicate 32 false)
  redraw := true
  keys := Vector.replicate 16 false
  fault := none
  draws := 0

/-- Why the machine stops. The nine causes of R200 are not here: raising one is a next state with the latch set (R213). -/
inductive Fault where
  /-- Raised by `step` on a state whose `FAULT` latch is set: "A faulted machine takes no step" (R183, R214). SAFE: the
  hardware does nothing more either. -/
  | stopped (record : FaultRecord)
  /-- Raised by RETURN when `SP` is above 16, so that `STACK[SP - 1]` does not exist. No run reaches such a state (R15,
  R28; log 6). SAFE: the model stops. -/
  | noStackSlot
  deriving DecidableEq, Repr

/-- Why a request is refused. -/
inductive Refusal where
  /-- Answered by `exec` for an instruction without a meaning; no instruction is left without one. SAFE. -/
  | notModelled (mnemonic : String)
  /-- Answered by the host's load move when the ROM does not fit below 4096: "a fatal load error", no run exists (R233).
  SAFE: the machine never steps. -/
  | loadTooLong
  /-- Answered by a session's load move after a load or a step: the load "Must complete before the first step()" and
  happens at most once (R232, D24). SAFE: the host has no such move. -/
  | loadNotAllowed
  deriving DecidableEq, Repr

end Sys2Proof.Machine
end

