-- ==== Sys2Proof/Machine/Memory.lean ====
section
/-! DEFINITION. `MEM`: what an unlisted address reads as, reading and writing one byte, and the canonical form
(20_memory.md; 70_reset_and_hazards.md rule R231). Range checks are made by the operations of Machine/Ops.lean. -/

namespace Sys2Proof.Machine

/-- `FONT_DATA`, the default table of R231: 16 glyphs of 5 bytes, digit 0 first.
PRESUMED (GK3, log 3), unsafe: the spec has the bytes from general knowledge. -/
def fontData : List Byte :=
  [ 0xF0, 0x90, 0x90, 0x90, 0xF0,   0x20, 0x60, 0x20, 0x20, 0x70,
    0xF0, 0x10, 0xF0, 0x80, 0xF0,   0xF0, 0x10, 0xF0, 0x10, 0xF0 ] ++
  [ 0x90, 0x90, 0xF0, 0x10, 0x10,   0xF0, 0x80, 0xF0, 0x10, 0xF0,
    0xF0, 0x80, 0xF0, 0x90, 0xF0,   0xF0, 0x10, 0x20, 0x40, 0x40 ] ++
  [ 0xF0, 0x90, 0xF0, 0x90, 0xF0,   0xF0, 0x90, 0xF0, 0x10, 0xF0,
    0xF0, 0x90, 0xF0, 0x90, 0x90,   0xE0, 0x90, 0xE0, 0x90, 0xE0 ] ++
  [ 0xF0, 0x80, 0x80, 0x80, 0xF0,   0xE0, 0x90, 0x90, 0x90, 0xE0,
    0xF0, 0x80, 0xF0, 0x80, 0xF0,   0xF0, 0x80, 0xF0, 0x80, 0x80 ]

/-- What address `a` holds at construction, and so what an unlisted address reads as: the font at 0x050 to 0x09F, 0
elsewhere (R19, R37). -/
def resetByte (a : Nat) : Byte :=
  if Config.fontBase ≤ a then fontData.getD (a - Config.fontBase) 0 else 0

/-- The byte at address `a`, for an address the caller has found in range (R38). -/
def Memory.read : Memory → Nat → Byte
  | [], a => resetByte a
  | (k, b) :: rest, a => if a = k then b else Memory.read rest a

/-- Store one byte (R38), keeping the canonical form: a byte equal to the reset contents is not listed. -/
def Memory.write : Memory → Nat → Byte → Memory
  | [], a, b => if b = resetByte a then [] else [(a, b)]
  | (k, c) :: rest, a, b =>
    if a < k then (if b = resetByte a then (k, c) :: rest else (a, b) :: (k, c) :: rest)
    else if a = k then (if b = resetByte a then rest else (a, b) :: rest)
    else (k, c) :: Memory.write rest a b

/-- Store consecutive bytes from address `a` upward, ascending (R42, D30). -/
def Memory.writeAll : Memory → Nat → List Byte → Memory
  | m, _, [] => m
  | m, a, b :: bs => Memory.writeAll (m.write a b) (a + 1) bs

/-- The canonical form from address `lo` upward: addresses strictly rising, inside the 4096 bytes, and no entry equal to
the reset contents. -/
def Memory.wfFrom : Nat → Memory → Bool
  | _, [] => true
  | lo, (k, b) :: rest => decide (lo ≤ k) && decide (k < 4096) && b != resetByte k && Memory.wfFrom (k + 1) rest

/-- The canonical form of `MEM`. -/
def Memory.wf (m : Memory) : Bool := Memory.wfFrom 0 m

end Sys2Proof.Machine
end

