-- ==== Sys2Proof/Machine/Operands.lean ====
section
/-! DEFINITION. The operand forms: registers, zero-extended addresses (R58), effective addresses (R51, R160), the checked
key and digit operands (R140, R164), decimal digits (R165), the sprite's origin and cells (R127, R128, R130). -/

namespace Sys2Proof.Machine

/-- Read general register `x` (R8, R11). -/
def State.readReg (s : State) (x : RegIdx) : Byte := s.v[x.toNat]'x.isLt

/-- Write general register `x` (R8, R11). -/
def State.writeReg (s : State) (x : RegIdx) (b : Byte) : State := { s with v := s.v.set x.toNat b x.isLt }

/-- `nnn` where it meets `PC` or `I`: zero-extended to 16 bits (R58). -/
def zext16 (nnn : Addr) : Word := nnn.setWidth 16

/-- A register's value where it meets `PC` or `I` (R83, R163). -/
def zext16Byte (b : Byte) : Word := b.setWidth 16

/-- The effective address `I + k`, on natural numbers, reduced neither mod 65536 nor mod 4096 (R51, R160). -/
def State.effectiveAddr (s : State) (k : Nat) : Nat := s.index.toNat + k

/-- The values of `V[0..x]` in order (R166). -/
def State.readRegsUpTo (s : State) (x : RegIdx) : List Byte :=
  (List.range (x.toNat + 1)).map fun k => s.readReg (BitVec.ofNat 4 k)

/-- Write consecutive registers from `V[k]` upward (R167). -/
def State.writeRegsFrom (k : Nat) : List Byte → State → State
  | [], s => s
  | b :: bs, s => State.writeRegsFrom (k + 1) bs (s.writeReg (BitVec.ofNat 4 k) b)

/-- The key a register's value names: values above 15 raise, unmasked (R140, D9). -/
def keyOperand (b : Byte) : Except Cause (Fin 16) :=
  if h : b.toNat < 16 then .ok ⟨b.toNat, h⟩ else .error .keyIndexOutOfRange

/-- The glyph address of the digit in a register: values above 15 raise (R164, D10). -/
def glyphOperand (b : Byte) : Except Cause Word :=
  if b.toNat < 16 then .ok (BitVec.ofNat 16 (Config.fontBase + 5 * b.toNat)) else .error .fontDigitOutOfRange

/-- The three decimal digits of a byte: hundreds, tens, ones (R165). -/
def bcdDigits (b : Byte) : List Byte :=
  [BitVec.ofNat 8 (b.toNat / 100), BitVec.ofNat 8 (b.toNat / 10 % 10), BitVec.ofNat 8 (b.toNat % 10)]

/-- The least pressed key, scanning "in increasing order" (R143). -/
def State.leastKey (s : State) : Option (Fin 16) := (List.finRange 16).find? fun k => s.keys[k]

/-- `DRAW_EDGE_POLICY` in force: the spec's default (R5, R128, D8; log 7). -/
def drawEdgePolicy : Config.EdgePolicy := .reject

/-- The sprite's column: "Only the origin is reduced" (R127). -/
def originX (b : Byte) : Nat := b.toNat % 64

/-- The sprite's row (R127). -/
def originY (b : Byte) : Nat := b.toNat % 32

/-- `EdgeCrossed` (R128): some cell of the 8 x n extent lies beyond column 63 or row 31. -/
def edgeCrossed (ox oy n : Nat) : Bool := decide (ox > 56) || decide (oy + n > 32)

/-- `Cell` of R128: the framebuffer cell a sprite pixel falls on, if any. -/
def spriteCell (policy : Config.EdgePolicy) (cx cy : Nat) : Option (Fin 64 × Fin 32) :=
  match policy with
  | .wrap => some (⟨cx % 64, Nat.mod_lt _ (by decide)⟩, ⟨cy % 32, Nat.mod_lt _ (by decide)⟩)
  | .reject | .clip => if h : cx < 64 ∧ cy < 32 then some (⟨cx, h.1⟩, ⟨cy, h.2⟩) else none

/-- Column `c` of a sprite row: bit 7 is column 0 (R130; PRESUMED, GK4, log 4, unsafe). -/
def spriteBit (row : Byte) (c : Nat) : Bool := row.getLsbD (7 - c)

/-- The cells under one sprite row's 1 bits, column 0 first (R127). -/
def litCellsOfRow (policy : Config.EdgePolicy) (ox cy : Nat) (row : Byte) : List (Fin 64 × Fin 32) :=
  (List.range 8).filterMap fun c => if spriteBit row c then spriteCell policy (ox + c) cy else none

/-- The cells under a sprite's 1 bits, row 0 first (R127). -/
def litCells (policy : Config.EdgePolicy) (ox : Nat) : Nat → List Byte → List (Fin 64 × Fin 32)
  | _, [] => []
  | oy, row :: rows => litCellsOfRow policy ox oy row ++ litCells policy ox (oy + 1) rows

end Sys2Proof.Machine
end

