-- ==== Sys2Proof/Machine/Flags.lean ====
section
/-! DEFINITION. Every value written to the flag register `V[15]` (10_state.md rule R12) and how a result and its flag are
written together, the aliasing case `x = 15` included (42_arithmetic.md rule R101). -/

namespace Sys2Proof.Machine

/-- A flag's value: 1 or 0. -/
def flagByte (c : Bool) : Byte := if c then 1 else 0

/-- ADD: carry out, `a + b ≥ 256` (R108). -/
def carryFlag (a b : Byte) : Byte := flagByte (decide (a.toNat + b.toNat ≥ 256))

/-- SUB and SUBN: the minuend strictly greater than the subtrahend (R109, R111; 90_conflicts.md C4). -/
def greaterFlag (a b : Byte) : Byte := flagByte (decide (a.toNat > b.toNat))

/-- SHIFT-RIGHT: the bit shifted out, `v & 1` (R110). -/
def lowBitFlag (v : Byte) : Byte := v &&& 1

/-- SHIFT-LEFT: the bit shifted out, `(v & 0x80) >> 7` (R112). -/
def highBitFlag (v : Byte) : Byte := (v &&& 0x80#8) >>> 7

/-- One free byte has been consumed (log 1). -/
def State.countDraw (s : State) : State := { s with draws := s.draws + 1 }

/-- Take the next free byte into `V[15]` (R101, log 1). -/
def State.drawFlag (s : State) : State := (s.writeReg vF (Config.freeByte s.draws)).countDraw

/-- Write a result to `V[x]` and its flag to `V[15]`. When `x` is 15 both name one register and its final value is a free
byte: neither "flag wins" nor "result wins" (R101, D11). -/
def State.writeResultFlag (s : State) (x : RegIdx) (result flag : Byte) : State :=
  if x = vF then s.drawFlag else (s.writeReg x result).writeReg vF flag

end Sys2Proof.Machine
end

