-- ==== Sys2Proof/Machine/Ops.lean ====
section
/-! DEFINITION. The named operations the meanings share: fetching, moving `PC`, the stack, checked memory transfer,
raising a fault (60_exceptions.md rule R213), and the end of a step (46_timers.md rule R153). -/

namespace Sys2Proof.Machine

/-- What a step or a meaning answers. -/
abbrev Answer := Host.Outcome State Fault Refusal

/-- The cause codes 1 to 9 of R200. -/
def Cause.code : Cause → Nat
  | .fetchOutOfRange => 1
  | .decodeError => 2
  | .decodeFatal => 3
  | .stackOverflow => 4
  | .stackUnderflow => 5
  | .memoryOutOfRange => 6
  | .framebufferOutOfRange => 7
  | .keyIndexOutOfRange => 8
  | .fontDigitOutOfRange => 9

/-- TAKING A FAULT (R213), applied to the state at the step's beginning: the latch records the cause, the opcode and the
`PC` of that state, and nothing else changes. There is no return from it (R214). -/
def State.raise (s : State) (c : Cause) (w : Option Word) : State :=
  { s with fault := some ⟨c, w, s.pc⟩ }

/-- `Fetch(PC)` (R39): two bytes, the first the high byte; none when `PC + 1` is above 4095. -/
def State.fetch (s : State) : Option Word :=
  if s.pc.toNat + 1 ≤ 4095 then some (wordOfBytes (s.mem.read s.pc.toNat) (s.mem.read (s.pc.toNat + 1))) else none

/-- The cause a decode error raises (R202, R203). -/
def causeOfDecodeError : DecodeError → Cause
  | .recoverable _ => .decodeError
  | .fatal _ => .decodeFatal

/-- Fetch and decode: the instruction of the step, or the fault it raises with the opcode to record (R180, R212). -/
def State.fetchInstr (s : State) : Except (Cause × Option Word) Instr :=
  match s.fetch with
  | none => .error (.fetchOutOfRange, none)
  | some w =>
    match decodeWord w with
    | .ok i => .ok i
    | .error e => .error (causeOfDecodeError e, some w)

/-- The fetch's advance: "advances `pc` by 2" (R180, R181). -/
def State.advance (s : State) : State := { s with pc := s.pc + 2 }

/-- `PC <- target` (R8). -/
def State.jumpTo (s : State) (target : Word) : State := { s with pc := target }

/-- The skip action (R90): the already advanced `PC` plus 2 when the condition holds. -/
def State.skipIf (s : State) (c : Bool) : State := if c then { s with pc := s.pc + 2 } else s

/-- `I <- v` (R13). -/
def State.setIndex (s : State) (w : Word) : State := { s with index := w }

/-- `DT <- v` (R17). -/
def State.setDelayTimer (s : State) (b : Byte) : State := { s with dt := b }

/-- `ST <- v` (R18). -/
def State.setSoundTimer (s : State) (b : Byte) : State := { s with st := b }

/-- Push the (post-fetch) `PC`; the check comes before any write (R81). -/
def State.push (s : State) : Except Cause State :=
  if h : s.sp.toNat < 16 then .ok { s with stack := s.stack.set s.sp.toNat s.pc h, sp := s.sp + 1 }
  else .error .stackOverflow

/-- `MemRead` of the `n` bytes from address `a`, the highest address checked first (R38, R160). -/
def State.readBytes (s : State) (a n : Nat) : Except Cause (List Byte) :=
  if n > 0 ∧ a + n - 1 > 4095 then .error .memoryOutOfRange
  else .ok ((List.range n).map fun k => s.mem.read (a + k))

/-- `MemWrite` of consecutive bytes from address `a`, the highest address checked before the first write (R38, R160). -/
def State.writeBytes (s : State) (a : Nat) (bs : List Byte) : Except Cause State :=
  if bs.length > 0 ∧ a + bs.length - 1 > 4095 then .error .memoryOutOfRange
  else .ok { s with mem := s.mem.writeAll a bs }

/-- An instruction that cannot fault: its effect on the post-fetch state (R181). -/
def State.runs (s : State) (effect : State → State) : Answer := .next (effect s.advance)

/-- An instruction that may raise: its effect on the post-fetch state, or the fault with opcode `w`, which discards
everything the step did (R180, R213). -/
def State.mayRaise (s : State) (w : Word) (effect : State → Except Cause State) : Answer :=
  match effect s.advance with
  | .ok t => .next t
  | .error c => .next (s.raise c (some w))

/-- One timer's decay: "floor at zero; never wraps negative" (R153). -/
def decayed (b : Byte) : Byte := if b = 0 then 0 else b - 1

/-- The decay of both timers (R153). -/
def State.decay (s : State) : State := { s with dt := decayed s.dt, st := decayed s.st }

/-- The end of a step: the timers decay unless the instruction raised a fault (R153, R180, R213). -/
def finishStep : Answer → Answer
  | .next t => .next (if t.fault = none then t.decay else t)
  | .fault r => .fault r
  | .refused r => .refused r

/-- Place one byte at an address of `MEM`; an address outside it is left alone. -/
def State.placeByte (s : State) (a : Nat) (b : Byte) : State :=
  if a ≤ 4095 then { s with mem := s.mem.write a b } else s

/-- Place an opcode where the next fetch reads it: high byte at `PC`, low byte at `PC + 1` (R39, R40). -/
def State.placeWord (s : State) (w : Word) : State :=
  (s.placeByte s.pc.toNat (hiByte w)).placeByte (s.pc.toNat + 1) (loByte w)

end Sys2Proof.Machine
end

