-- ==== Sys2Proof/Machine/Arithmetic.lean ====
section
/-! DEFINITION. The literal forms and family 8 (42_arithmetic.md). Operands are read before any write (R101); results and
flags are written by `State.writeResultFlag`. -/

namespace Sys2Proof.Machine

/-- LOAD-BYTE `Vx, kk` (R102). -/
def execLoadByte (x : RegIdx) (kk : Byte) (s : State) : Answer := s.runs fun u => u.writeReg x kk

/-- ADD-BYTE `Vx, kk` (R103): the carry is dropped. -/
def execAddByte (x : RegIdx) (kk : Byte) (s : State) : Answer :=
  s.runs fun u => u.writeReg x (u.readReg x + kk)

/-- LOAD `Vx, Vy` (R104). -/
def execLoad (x y : RegIdx) (s : State) : Answer := s.runs fun u => u.writeReg x (u.readReg y)

/-- OR `Vx, Vy` (R105): no flag. -/
def execOr (x y : RegIdx) (s : State) : Answer := s.runs fun u => u.writeReg x (u.readReg x ||| u.readReg y)

/-- AND `Vx, Vy` (R106): no flag. -/
def execAnd (x y : RegIdx) (s : State) : Answer := s.runs fun u => u.writeReg x (u.readReg x &&& u.readReg y)

/-- XOR `Vx, Vy` (R107): no flag. -/
def execXor (x y : RegIdx) (s : State) : Answer := s.runs fun u => u.writeReg x (u.readReg x ^^^ u.readReg y)

/-- ADD `Vx, Vy` (R108). -/
def execAdd (x y : RegIdx) (s : State) : Answer :=
  s.runs fun u =>
    u.writeResultFlag x (u.readReg x + u.readReg y) (carryFlag (u.readReg x) (u.readReg y))

/-- SUB `Vx, Vy` (R109). -/
def execSub (x y : RegIdx) (s : State) : Answer :=
  s.runs fun u =>
    u.writeResultFlag x (u.readReg x - u.readReg y) (greaterFlag (u.readReg x) (u.readReg y))

/-- SHIFT-RIGHT `Vx` (R110): `y` is decoded and ignored. -/
def execShiftRight (x _y : RegIdx) (s : State) : Answer :=
  s.runs fun u => u.writeResultFlag x (u.readReg x >>> 1) (lowBitFlag (u.readReg x))

/-- SUBN `Vx, Vy` (R111): the result goes to `V[x]`. -/
def execSubn (x y : RegIdx) (s : State) : Answer :=
  s.runs fun u =>
    u.writeResultFlag x (u.readReg y - u.readReg x) (greaterFlag (u.readReg y) (u.readReg x))

/-- SHIFT-LEFT `Vx` (R112): `y` is decoded and ignored. -/
def execShiftLeft (x _y : RegIdx) (s : State) : Answer :=
  s.runs fun u => u.writeResultFlag x (u.readReg x <<< 1) (highBitFlag (u.readReg x))

end Sys2Proof.Machine
end

