-- ==== Sys2Proof/Machine/ControlFlow.lean ====
section
/-! DEFINITION. JUMP, CALL, RETURN, JUMP-WITH-OFFSET (40_control_flow.md). -/

namespace Sys2Proof.Machine

/-- JUMP `nnn` (R80). -/
def execJump (nnn : Addr) (s : State) : Answer := s.runs fun u => u.jumpTo (zext16 nnn)

/-- CALL `nnn` (R81): the value pushed is the post-fetch `PC`. -/
def execCall (nnn : Addr) (s : State) : Answer :=
  s.mayRaise (encode (.call nnn)) fun u => do
    let t ← u.push
    return t.jumpTo (zext16 nnn)

/-- RETURN (R82): the popped slot keeps its value (R16). With `SP` above 16 there is no slot to read: the machine stops,
which no run reaches (R28, log 6). -/
def execRet (s : State) : Answer :=
  if s.sp = 0 then .next (s.raise .stackUnderflow (some (encode .ret)))
  else if h : s.sp.toNat - 1 < 16 then .next { s.advance with sp := s.sp - 1, pc := s.stack[s.sp.toNat - 1] }
  else .fault .noStackSlot

/-- JUMP-WITH-OFFSET `nnn` (R83): the sum is not reduced to 12 bits (D32). -/
def execJumpWithOffset (nnn : Addr) (s : State) : Answer :=
  s.runs fun u => u.jumpTo (zext16 nnn + zext16Byte (u.readReg 0))

end Sys2Proof.Machine
end

