-- ==== Sys2Proof/Machine/Drawing.lean ====
section
/-! DEFINITION. CLEAR-SCREEN and DRAW-SPRITE (44_drawing.md). -/

namespace Sys2Proof.Machine

/-- A screen with every cell off (R20, R126). -/
def blankScreen : Screen := Vector.replicate 64 (Vector.replicate 32 false)

/-- `FB[cx][cy]`. -/
def Screen.cell (fb : Screen) (c : Fin 64 × Fin 32) : Bool := fb[c.1][c.2]

/-- `FB[cx][cy] <- not FB[cx][cy]`. -/
def Screen.toggle (fb : Screen) (c : Fin 64 × Fin 32) : Screen :=
  fb.set c.1 (fb[c.1].set c.2 (!fb[c.1][c.2]))

/-- The running state of R127's loop: the screen, `collision` and `changed`. -/
structure Plot where
  fb : Screen
  collision : Bool
  changed : Bool
  deriving DecidableEq, Repr

/-- One sprite pixel with bit 1 on its cell (R127). -/
def Plot.pixel (p : Plot) (c : Fin 64 × Fin 32) : Plot :=
  { fb := Screen.toggle p.fb c, collision := p.collision || Screen.cell p.fb c, changed := true }

/-- All the sprite's 1 bits in order (R127). -/
def plotCells (fb : Screen) (cells : List (Fin 64 × Fin 32)) : Plot :=
  cells.foldl Plot.pixel { fb := fb, collision := false, changed := false }

/-- Write a finished plot: the cells, `V[15]` the collision, `REDRAW` set if some cell changed and never cleared (R127). -/
def State.writePlot (s : State) (p : Plot) : State :=
  { s.writeReg vF (flagByte p.collision) with fb := p.fb, redraw := s.redraw || p.changed }

/-- R127 under a given edge policy (R128): memory is checked first, then, under `reject`, the sprite's extent (R212). -/
def State.drawSprite (policy : Config.EdgePolicy) (x y : RegIdx) (n : Nibble) (s : State) : Except Cause State := do
  let ox := originX (s.readReg x)
  let oy := originY (s.readReg y)
  let rows ← s.readBytes (s.effectiveAddr 0) n.toNat
  if n.toNat > 0 ∧ edgeCrossed ox oy n.toNat ∧ policy = .reject then .error .framebufferOutOfRange
  else return s.writePlot (plotCells s.fb (litCells policy ox oy rows))

/-- CLEAR-SCREEN (R126): `REDRAW` is set "regardless of prior content". -/
def execClearScreen (s : State) : Answer := s.runs fun u => { u with fb := blankScreen, redraw := true }

/-- DRAW-SPRITE `Vx, Vy, n` (R127) under the policy in force. -/
def execDrawSprite (x y : RegIdx) (n : Nibble) (s : State) : Answer :=
  s.mayRaise (encode (.drawSprite x y n)) (State.drawSprite drawEdgePolicy x y n)

end Sys2Proof.Machine
end

