-- ==== Sys2Proof/Machine/Input.lean ====
section
/-! DEFINITION. The key skips and BLOCK-WAIT-FOR-KEY (45_input.md). None writes `KEYS` (R22). -/

namespace Sys2Proof.Machine

/-- SKIP-IF-KEY-PRESSED `Vx` (R141). -/
def execSkipIfKeyPressed (x : RegIdx) (s : State) : Answer :=
  s.mayRaise (encode (.skipIfKeyPressed x)) fun u => do
    let k ← keyOperand (u.readReg x)
    return u.skipIf u.keys[k]

/-- SKIP-IF-KEY-NOT-PRESSED `Vx` (R142). -/
def execSkipIfKeyNotPressed (x : RegIdx) (s : State) : Answer :=
  s.mayRaise (encode (.skipIfKeyNotPressed x)) fun u => do
    let k ← keyOperand (u.readReg x)
    return u.skipIf (!u.keys[k])

/-- BLOCK-WAIT-FOR-KEY `Vx` (R143): the least pressed key, or `PC` back to this instruction. -/
def execBlockWaitForKey (x : RegIdx) (s : State) : Answer :=
  s.runs fun u =>
    match u.leastKey with
    | some k => u.writeReg x (BitVec.ofNat 8 k.val)
    | none => u.jumpTo (u.pc - 2)

end Sys2Proof.Machine
end

