-- ==== Sys2Proof/Machine/MemoryTransfer.lean ====
section
/-! DEFINITION. The index register and memory transfer (47_memory_transfer.md). -/

namespace Sys2Proof.Machine

/-- LOAD-INDEX `nnn` (R161). -/
def execLoadIndex (nnn : Addr) (s : State) : Answer := s.runs fun u => u.setIndex (zext16 nnn)

/-- ADD-TO-INDEX `Vx` (R163): 16-bit wraparound, no flag. -/
def execAddToIndex (x : RegIdx) (s : State) : Answer :=
  s.runs fun u => u.setIndex (u.index + zext16Byte (u.readReg x))

/-- LOAD-FONT-ADDRESS `Vx` (R164). -/
def execLoadFontAddress (x : RegIdx) (s : State) : Answer :=
  s.mayRaise (encode (.loadFontAddress x)) fun u => do
    let a ← glyphOperand (u.readReg x)
    return u.setIndex a

/-- STORE-BCD-DIGITS `Vx` (R165). -/
def execStoreBcdDigits (x : RegIdx) (s : State) : Answer :=
  s.mayRaise (encode (.storeBcdDigits x)) fun u => u.writeBytes (u.effectiveAddr 0) (bcdDigits (u.readReg x))

/-- STORE-REGISTERS-TO-MEMORY `Vx` (R166): `V[0..x]` inclusive; `I` is unchanged. -/
def execStoreRegistersToMemory (x : RegIdx) (s : State) : Answer :=
  s.mayRaise (encode (.storeRegistersToMemory x)) fun u => u.writeBytes (u.effectiveAddr 0) (u.readRegsUpTo x)

/-- LOAD-REGISTERS-FROM-MEMORY `Vx` (R167): `V[0..x]` inclusive; `I` is unchanged. -/
def execLoadRegistersFromMemory (x : RegIdx) (s : State) : Answer :=
  s.mayRaise (encode (.loadRegistersFromMemory x)) fun u => do
    let bytes ← u.readBytes (u.effectiveAddr 0) (x.toNat + 1)
    return u.writeRegsFrom 0 bytes

end Sys2Proof.Machine
end

