-- ==== Sys2Proof/Machine/NoOps.lean ====
section
/-! DEFINITION. SYS (48_noops.md). -/

namespace Sys2Proof.Machine

/-- SYS `nnn` (R175): "decoded but has no execution effect"; `nnn` is unused. -/
def execSys (_nnn : Addr) (s : State) : Answer := s.runs fun u => u

end Sys2Proof.Machine
end

