-- ==== Sys2Proof/Machine/Random.lean ====
section
/-! DEFINITION. RANDOM-AND-MASK (43_random.md). -/

namespace Sys2Proof.Machine

/-- `V[x] <- rnd & kk` for a given `rnd` (R121). -/
def State.writeMasked (s : State) (x : RegIdx) (rnd kk : Byte) : State := s.writeReg x (rnd &&& kk)

/-- RANDOM-AND-MASK `Vx, kk` (R121): `rnd` is the next free byte (R120, log 1). -/
def execRandomAndMask (x : RegIdx) (kk : Byte) (s : State) : Answer :=
  s.runs fun u => (u.writeMasked x (Config.freeByte u.draws) kk).countDraw

end Sys2Proof.Machine
end

