-- ==== Sys2Proof/Machine/Skips.lean ====
section
/-! DEFINITION. The skips on register values (41_skips.md). The skip action is `State.skipIf` (R90). -/

namespace Sys2Proof.Machine

/-- SKIP-IF-EQUAL-BYTE `Vx, kk` (R91). -/
def execSkipIfEqualByte (x : RegIdx) (kk : Byte) (s : State) : Answer :=
  s.runs fun u => u.skipIf (u.readReg x == kk)

/-- SKIP-IF-NOT-EQUAL-BYTE `Vx, kk` (R92). -/
def execSkipIfNotEqualByte (x : RegIdx) (kk : Byte) (s : State) : Answer :=
  s.runs fun u => u.skipIf (u.readReg x != kk)

/-- SKIP-IF-REGISTERS-EQUAL `Vx, Vy` (R93). -/
def execSkipIfRegistersEqual (x y : RegIdx) (s : State) : Answer :=
  s.runs fun u => u.skipIf (u.readReg x == u.readReg y)

/-- SKIP-IF-REGISTERS-NOT-EQUAL `Vx, Vy` (R94). -/
def execSkipIfRegistersNotEqual (x y : RegIdx) (s : State) : Answer :=
  s.runs fun u => u.skipIf (u.readReg x != u.readReg y)

end Sys2Proof.Machine
end

