-- ==== Sys2Proof/Machine/Timers.lean ====
section
/-! DEFINITION. The timer instructions (46_timers.md). The per-step decay is `State.decay` in Machine/Ops.lean (R153). -/

namespace Sys2Proof.Machine

/-- LOAD-DELAY `Vx` (R150): the value before this step's decay. -/
def execLoadDelay (x : RegIdx) (s : State) : Answer := s.runs fun u => u.writeReg x u.dt

/-- SET-DELAY `Vx` (R151). -/
def execSetDelay (x : RegIdx) (s : State) : Answer := s.runs fun u => u.setDelayTimer (u.readReg x)

/-- SET-SOUND `Vx` (R152). -/
def execSetSound (x : RegIdx) (s : State) : Answer := s.runs fun u => u.setSoundTimer (u.readReg x)

end Sys2Proof.Machine
end

