-- ==== Sys2Proof/Machine/Dispatch.lean ====
section
/-! DEFINITION. One arm per variant: the step applies exactly one rule, chosen by the variant (50_step_cycle.md rule
R182). `exec` takes the state at the step's beginning (`PC` not yet advanced) and answers the state before the timer
decay. -/

namespace Sys2Proof.Machine

def exec (i : Instr) (s : State) : Host.Outcome State Fault Refusal :=
  match i with
  | .clearScreen => Sys2Proof.Machine.execClearScreen s
  | .ret => Sys2Proof.Machine.execRet s
  | .sys nnn => Sys2Proof.Machine.execSys nnn s
  | .jump nnn => Sys2Proof.Machine.execJump nnn s
  | .call nnn => Sys2Proof.Machine.execCall nnn s
  | .skipIfEqualByte x kk => Sys2Proof.Machine.execSkipIfEqualByte x kk s
  | .skipIfNotEqualByte x kk => Sys2Proof.Machine.execSkipIfNotEqualByte x kk s
  | .skipIfRegistersEqual x y => Sys2Proof.Machine.execSkipIfRegistersEqual x y s
  | .loadByte x kk => Sys2Proof.Machine.execLoadByte x kk s
  | .addByte x kk => Sys2Proof.Machine.execAddByte x kk s
  | .load x y => Sys2Proof.Machine.execLoad x y s
  | .or x y => Sys2Proof.Machine.execOr x y s
  | .and x y => Sys2Proof.Machine.execAnd x y s
  | .xor x y => Sys2Proof.Machine.execXor x y s
  | .add x y => Sys2Proof.Machine.execAdd x y s
  | .sub x y => Sys2Proof.Machine.execSub x y s
  | .shiftRight x y => Sys2Proof.Machine.execShiftRight x y s
  | .subn x y => Sys2Proof.Machine.execSubn x y s
  | .shiftLeft x y => Sys2Proof.Machine.execShiftLeft x y s
  | .skipIfRegistersNotEqual x y => Sys2Proof.Machine.execSkipIfRegistersNotEqual x y s
  | .loadIndex nnn => Sys2Proof.Machine.execLoadIndex nnn s
  | .jumpWithOffset nnn => Sys2Proof.Machine.execJumpWithOffset nnn s
  | .randomAndMask x kk => Sys2Proof.Machine.execRandomAndMask x kk s
  | .drawSprite x y n => Sys2Proof.Machine.execDrawSprite x y n s
  | .skipIfKeyPressed x => Sys2Proof.Machine.execSkipIfKeyPressed x s
  | .skipIfKeyNotPressed x => Sys2Proof.Machine.execSkipIfKeyNotPressed x s
  | .loadDelay x => Sys2Proof.Machine.execLoadDelay x s
  | .blockWaitForKey x => Sys2Proof.Machine.execBlockWaitForKey x s
  | .setDelay x => Sys2Proof.Machine.execSetDelay x s
  | .setSound x => Sys2Proof.Machine.execSetSound x s
  | .addToIndex x => Sys2Proof.Machine.execAddToIndex x s
  | .loadFontAddress x => Sys2Proof.Machine.execLoadFontAddress x s
  | .storeBcdDigits x => Sys2Proof.Machine.execStoreBcdDigits x s
  | .storeRegistersToMemory x => Sys2Proof.Machine.execStoreRegistersToMemory x s
  | .loadRegistersFromMemory x => Sys2Proof.Machine.execLoadRegistersFromMemory x s

end Sys2Proof.Machine
end

