-- ==== Sys2Proof/Machine/Step.lean ====
section
/-! DEFINITION. One step (50_step_cycle.md rule R180): fetch, advance, decode, execute, timer decay; and placing an
instruction where the next fetch reads it. -/

namespace Sys2Proof.Machine

/-- `step()` (R180). A latched fault allows no step (R183); a fault of fetch or decode is latched (R201 to R203, R213);
otherwise the decoded instruction runs and the timers decay. -/
def step (s : State) : Host.Outcome State Fault Refusal :=
  match s.fault with
  | some r => .fault (.stopped r)
  | none =>
    match s.fetchInstr with
    | .error (c, w) => .next (s.raise c w)
    | .ok i => finishStep (exec i s)

/-- The state with a table word stored where `step` fetches its next instruction: the two bytes at `PC` (log 9). -/
def State.withFetchWord (s : State) (nbits w : Nat) : State := s.placeWord (tableWord nbits w)

end Sys2Proof.Machine
end

