-- ==== Sys2Proof/Machine/HostMoves.lean ====
section
/-! DEFINITION. The host's moves between steps (50_step_cycle.md rules R186 to R193) and the sessions they make with
`step`: any schedule of moves is a list, so a claim over all lists holds for every host (R187, R190, D27). -/

namespace Sys2Proof.Machine

/-- Input Source: replace the key latch by any value (R187). -/
def State.hostKeys (s : State) (keys : Vector Bool 16) : State := { s with keys := keys }

/-- Input Source: one press (true) or release (false) of key `k` (R186, R187). -/
def State.hostKey (s : State) (k : Fin 16) (pressed : Bool) : State := { s with keys := s.keys.set k pressed }

/-- Display Sink: what a frame transfer reads, `REDRAW` and the cells (R186, R188). -/
def State.hostFrame (s : State) : Bool × Screen := (s.redraw, s.fb)

/-- Driver Loop: clear the redraw flag (R188). -/
def State.hostFrameAck (s : State) : State := { s with redraw := false }

/-- The host's view of the fault latch (R186). -/
def State.hostFault (s : State) : Option FaultRecord := s.fault

/-- ROM Loader: write the bytes from 0x200 upward; a ROM that overflows the image is refused and no run exists (R232,
R233). -/
def State.hostLoad (s : State) (rom : List Byte) : Answer :=
  if Config.progBase + rom.length ≤ Config.memSize then .next { s with mem := s.mem.writeAll Config.progBase rom }
  else .refused .loadTooLong

/-- A machine with the host's protocol state beside it: whether the ROM may still be loaded (R232). The second field is
the host's, not the machine's. -/
structure Session where
  machine : State
  mayLoad : Bool
  deriving DecidableEq, Repr

/-- A session begins with a constructed machine (R193, R234). -/
def Session.start : Session := { machine := State.reset, mayLoad := true }

/-- One transaction of R186 that changes something. -/
inductive Move where
  | load (rom : List Byte)
  | step
  | keys (latch : Vector Bool 16)
  | key (k : Fin 16) (pressed : Bool)
  | frameAck
  deriving DecidableEq, Repr

/-- Lift a machine's answer to a session that may load no more. -/
def Session.afterRun : Answer → Host.Outcome Session Fault Refusal
  | .next t => .next { machine := t, mayLoad := false }
  | .fault r => .fault r
  | .refused r => .refused r

/-- One move (R193): the load at most once and before the first step; keys and frame acknowledgements between any two
steps, before the first one too (R234). DESIGN CHOICE (log 19), safe: the spec places these moves "between two steps" and
calls a faulted state absorbing (R190, R214), and says nothing of the time after a faulting step; here they stay enabled
then and change `KEYS` and `REDRAW` alone. No move clears `FAULT`, and the step move of a faulted machine answers
`stopped`. -/
def Session.act (h : Session) : Move → Host.Outcome Session Fault Refusal
  | .load rom => if h.mayLoad then Session.afterRun (h.machine.hostLoad rom) else .refused .loadNotAllowed
  | .step => Session.afterRun (Sys2Proof.Machine.step h.machine)
  | .keys latch => .next { h with machine := h.machine.hostKeys latch }
  | .key k pressed => .next { h with machine := h.machine.hostKey k pressed }
  | .frameAck => .next { h with machine := h.machine.hostFrameAck }

/-- A schedule of moves, stopping at the first fault or refusal. -/
def Session.run (h : Session) : List Move → Host.Outcome Session Fault Refusal
  | [] => .next h
  | m :: ms =>
    match h.act m with
    | .next h' => h'.run ms
    | .fault r => .fault r
    | .refused r => .refused r

end Sys2Proof.Machine
end

