-- ==== Sys2Proof/Safety.lean ====
section
/-! DEFINITION. The terms claims use: every piece of state as a natural number (00_scope.md rule R7), frames over them, a
run without a fault (R214), and the invariant of reachable states (10_state.md rules R14, R15, R28). -/

namespace Sys2Proof.Machine

/-- The name of a piece of state that holds a number: every row of R10 but `FAULT`, and the model's own `draws`. -/
inductive Part where
  | reg (x : RegIdx)
  | index
  | pc
  | sp
  | stack (k : Fin 16)
  | dt
  | st
  /-- one byte of `MEM` (an address above 4095 names nothing and reads as 0) -/
  | byte (a : Nat)
  | cell (x : Fin 64) (y : Fin 32)
  | redraw
  | key (k : Fin 16)
  | draws
  deriving DecidableEq, Repr

/-- A boolean as the number 1 or 0. -/
def bit (b : Bool) : Nat := if b then 1 else 0

/-- The number a piece of state holds (R7: all values are unsigned). -/
def State.view (s : State) : Part → Nat
  | .reg x => (s.readReg x).toNat
  | .index => s.index.toNat
  | .pc => s.pc.toNat
  | .sp => s.sp.toNat
  | .stack k => s.stack[k].toNat
  | .dt => s.dt.toNat
  | .st => s.st.toNat
  | .byte a => if a ≤ 4095 then (s.mem.read a).toNat else 0
  | .cell x y => bit s.fb[x][y]
  | .redraw => bit s.redraw
  | .key k => bit s.keys[k]
  | .draws => s.draws

/-- THE FRAME: from `s` to `t` no fault is latched or cleared and every piece of state outside `changed` keeps its
value. -/
def Frame (changed : Part → Prop) (s t : State) : Prop :=
  t.fault = s.fault ∧ ∀ p, ¬ changed p → t.view p = s.view p

/-- What a sprite covers (R127, R130): column `cx`, row `cy` lies under a 1 bit of the `n` rows at `I`, when sprite pixel
(column `c`, row `r`) falls on the cell `place (ox + c) (oy + r)`. -/
def SpriteCovers (s : State) (place : Nat → Nat → Nat × Nat) (ox oy n cx cy : Nat) : Prop :=
  ∃ c r, c < 8 ∧ r < n ∧ place (ox + c) (oy + r) = (cx, cy) ∧
    s.view (.byte (s.view .index + r)) / 2 ^ (7 - c) % 2 = 1

/-- What drawing a sprite does to the screen, the flag and the redraw flag (R127): covered cells toggle and the others
stay; `V[15]` is 1 exactly when a covered cell was on; `REDRAW` becomes 1 when a cell is covered and stays otherwise. -/
def Drawn (covered : Nat → Nat → Prop) (s t : State) : Prop :=
  (∀ (x : Fin 64) (y : Fin 32), (covered x y → t.view (.cell x y) = 1 - s.view (.cell x y)) ∧
    (¬ covered x y → t.view (.cell x y) = s.view (.cell x y))) ∧
  ((∃ (x : Fin 64) (y : Fin 32), covered x y ∧ s.view (.cell x y) = 1) → t.view (.reg 15) = 1) ∧
  ((¬ ∃ (x : Fin 64) (y : Fin 32), covered x y ∧ s.view (.cell x y) = 1) → t.view (.reg 15) = 0) ∧
  ((∃ (x : Fin 64) (y : Fin 32), covered x y) → t.view .redraw = 1) ∧
  ((¬ ∃ (x : Fin 64) (y : Fin 32), covered x y) → t.view .redraw = s.view .redraw)

/-- The words that decode to no variant (R61; the numbers of families 8 and F are GK1 and GK2, log 10): family E. -/
def UnknownKeyWord (w : Word) : Prop := opField w = 0xE ∧ kkField w ≠ 0x9E ∧ kkField w ≠ 0xA1

/-- The words that decode to no variant (R61, GK1, GK2): families 8 and F. -/
def UnknownFatalWord (w : Word) : Prop :=
  (opField w = 0x8 ∧ nField w ∈ [0x8#4, 0x9#4, 0xA#4, 0xB#4, 0xC#4, 0xD#4, 0xF#4]) ∨
  (opField w = 0xF ∧ kkField w ∉ [0x07#8, 0x0A#8, 0x15#8, 0x18#8, 0x1E#8, 0x29#8, 0x33#8, 0x55#8, 0x65#8])

/-- The instructions that consume a free value: RANDOM-AND-MASK (R120) and the five aliasing cases (R101). -/
def ConsumesFreeValue (i : Instr) : Prop :=
  (∃ x kk, i = .randomAndMask x kk) ∨
  ∃ y, i ∈ [Instr.add 15 y, Instr.sub 15 y, Instr.shiftRight 15 y, Instr.subn 15 y, Instr.shiftLeft 15 y]

/-- Apply a function to the next state of an answer. -/
def onNext (f : State → State) : Answer → Answer
  | .next t => .next (f t)
  | .fault r => .fault r
  | .refused r => .refused r

/-- No fault is latched: the only states of a good run (R214). -/
def Safe (s : State) : Prop := s.fault = none

/-- The invariant of reachable states: memory in canonical form; at most 16 return addresses (R15, R28); `PC` and the
return addresses in the ranges of R14 (a pushed `PC` was advanced from at most 4094). -/
def Invariant (s : State) : Prop :=
  s.mem.wf = true ∧ s.sp.toNat ≤ 16 ∧ s.pc.toNat ≤ 0x10FE ∧ ∀ k : Fin 16, s.stack[k].toNat ≤ 4096

end Sys2Proof.Machine
end

