-- ==== Sys2Proof/Certificates/Slice0/Obligations.lean ====
section
/-! DEFINITION. The statements for the provers. Numbers are natural numbers read by `State.view`, as the spec's rules read
them (00_scope.md rule R7); `Frame changed s t` says that nothing outside `changed` differs. In every statement about
`exec`, `s` is the state at the step's beginning, so that the post-fetch `PC` of the rules is `s.view .pc + 2`. Words of an
instruction are written as their nibbles, `0x1#4 ++ nnn` for `1nnn`. Statements about a rule the spec marks as its own
decision, derivation or general knowledge say so and have the basis 'derived'. -/

open Sys2Proof Sys2Proof.Machine

/-! ### Reset, the step, fault entry -/

/-- R25, R230: what construction leaves. `KEYS` all false is the spec's decision D18; the 80 font bytes are the model's
`fontData`, general knowledge (GK3, log 3): the statement says only that they lie at 0x050. -/
def Obligations.ResetLeavesTheConstructedState : Prop :=
  (∀ x, State.reset.view (.reg x) = 0) ∧ State.reset.view .index = 0 ∧ State.reset.view .pc = 0x200 ∧
  State.reset.view .sp = 0 ∧ (∀ k, State.reset.view (.stack k) = 0) ∧ State.reset.view .dt = 0 ∧
  State.reset.view .st = 0 ∧ (∀ a, a < 0x050 ∨ 0x09F < a → State.reset.view (.byte a) = 0) ∧
  fontData.length = 80 ∧ (∀ k, k < 80 → State.reset.view (.byte (0x050 + k)) = (fontData.getD k 0).toNat) ∧
  (∀ x y, State.reset.view (.cell x y) = 0) ∧ State.reset.view .redraw = 1 ∧ (∀ k, State.reset.view (.key k) = 0) ∧
  State.reset.fault = none

/-- R180, R181, R182, R39, R40: when the two bytes at `PC`, the first the high byte, decode to `i`, then `i` is
well-formed and the step is `exec i` followed by the decay of both timers, which a latched fault suppresses. -/
def Obligations.StepRunsTheFetchedInstruction : Prop :=
  ∀ (s : State) (w : Word) (i : Instr), s.fault = none → s.view .pc ≤ 4094 →
    w.toNat = s.view (.byte (s.view .pc)) * 256 + s.view (.byte (s.view .pc + 1)) → decodeWord w = .ok i →
    i.WellFormed ∧
    step s =
      match exec i s with
      | .next t =>
        .next (if t.fault = none then
          { t with dt := if t.dt = 0 then 0 else t.dt - 1, st := if t.st = 0 then 0 else t.st - 1 } else t)
      | .fault r => .fault r
      | .refused r => .refused r

/-- R183, R214 (the latch is the spec's device, D4): a machine with a latched fault takes no step. -/
def Obligations.FaultedMachineTakesNoStep : Prop :=
  ∀ (s : State) (r : FaultRecord), s.fault = some r → step s = .fault (.stopped r)

/-- R191 [derived there], under the invariant `SP ≤ 16` of R15 (StepKeepsTheInvariant): a machine without a fault has a
step. -/
def Obligations.UnfaultedMachineHasAStep : Prop :=
  ∀ s : State, Safe s → s.view .sp ≤ 16 → ∃ t, step s = .next t

/-- R39, R201 (decision D7): with `PC` at 4095 or above the step latches `FetchOutOfRange`, with no opcode, and changes
nothing else. -/
def Obligations.FetchPastTheEndFaults : Prop :=
  ∀ s : State, Safe s → 4095 ≤ s.view .pc → step s = .next { s with fault := some ⟨.fetchOutOfRange, none, s.pc⟩ }

/-- R61, R113, R144, R168, R202, R203 (numbers GK1, GK2; fault entry D19): a word of no variant latches the decoder's
class of error, with the word and its address, and changes nothing else. -/
def Obligations.IllegalWordsFault : Prop :=
  ∀ (s : State) (w : Word), Safe s → s.view .pc ≤ 4094 →
    w.toNat = s.view (.byte (s.view .pc)) * 256 + s.view (.byte (s.view .pc + 1)) →
    (UnknownKeyWord w → step s = .next { s with fault := some ⟨.decodeError, some w, s.pc⟩ }) ∧
    (UnknownFatalWord w → step s = .next { s with fault := some ⟨.decodeFatal, some w, s.pc⟩ })

/-- R213, R23, R200 (decisions D19, D29): a step that latches a fault leaves every other piece of state as it was when the
step began, and records the fetched word (absent for a failed fetch) and the address the step began at. -/
def Obligations.FaultEntryIsPrecise : Prop :=
  ∀ (s t : State) (r : FaultRecord), step s = .next t → t.fault = some r →
    t = { s with fault := some r } ∧ r.address = s.pc ∧ r.opcode = s.fetch ∧
    (r.cause = .fetchOutOfRange ↔ r.opcode = none)

/-- R200 (decisions D5 to D10): "No other instruction can fault". An executed instruction that latches a fault is one of
the nine, with its own cause. -/
def Obligations.OnlyTheListedInstructionsFault : Prop :=
  ∀ (i : Instr) (s t : State) (r : FaultRecord), Safe s → exec i s = .next t → t.fault = some r →
    ((∃ nnn, i = .call nnn) ∧ r.cause = .stackOverflow ∧ 16 ≤ s.view .sp) ∨
    (i = .ret ∧ r.cause = .stackUnderflow ∧ s.view .sp = 0) ∨
    ((∃ x y n, i = .drawSprite x y n) ∧ (r.cause = .memoryOutOfRange ∨ r.cause = .framebufferOutOfRange)) ∨
    ((∃ x, i = .storeBcdDigits x ∨ i = .storeRegistersToMemory x ∨ i = .loadRegistersFromMemory x) ∧
      r.cause = .memoryOutOfRange) ∨
    (∃ x, (i = .skipIfKeyPressed x ∨ i = .skipIfKeyNotPressed x) ∧ r.cause = .keyIndexOutOfRange ∧
      15 < s.view (.reg x)) ∨
    (∃ x, i = .loadFontAddress x ∧ r.cause = .fontDigitOutOfRange ∧ 15 < s.view (.reg x))

/-- R153 (that a faulting step decays nothing is decision D23): each completed step lowers each nonzero timer the
instruction left by 1, whatever the instruction was. -/
def Obligations.TimersDecayOncePerStep : Prop :=
  ∀ s t : State, step s = .next t →
    (t.fault = none → ∃ w i u, s.fetch = some w ∧ decodeWord w = .ok i ∧ exec i s = .next u ∧
      t.view .dt = u.view .dt - 1 ∧ t.view .st = u.view .st - 1 ∧ Frame (fun p => p = .dt ∨ p = .st) u t) ∧
    (t.fault ≠ none → t.view .dt = s.view .dt ∧ t.view .st = s.view .st)

/-! ### Encoding -/

/-- R59, R60 (numbers of families 8 and F: GK1, GK2): decoding the opcode of a well-formed instruction gives it back, with
every operand at every value. -/
def Obligations.DecodeInvertsEncode : Prop :=
  ∀ i : Instr, i.WellFormed → decodeWord (encode i) = .ok i ∧ decode (encodeBytes i) = .ok (i, [])

/-- R59, R63, R67: a word that decodes is the opcode of its instruction, but for the low nibble that families 5 and 9
ignore, which assembles as 0; and what it decodes to is well-formed. -/
def Obligations.EncodeInvertsDecode : Prop :=
  ∀ (w : Word) (i : Instr), decodeWord w = .ok i →
    i.WellFormed ∧
    encode i = if opField w = 0x5 ∨ opField w = 0x9 then opField w ++ xField w ++ yField w ++ 0x0#4 else w

/-- R61, R66 (numbers GK1, GK2): the decoder is total; it gives an error exactly for the illegal words, of the family's
class, carrying the word. -/
def Obligations.DecoderErrorsAreTheIllegalWords : Prop :=
  ∀ w : Word,
    (decodeWord w = .error (.recoverable w) ↔ UnknownKeyWord w) ∧
    (decodeWord w = .error (.fatal w) ↔ UnknownFatalWord w) ∧
    ((∃ i, decodeWord w = .ok i) ↔ ¬ UnknownKeyWord w ∧ ¬ UnknownFatalWord w)

/-- R59, 95_test_vectors.md S4: the document's ten words. A sanity statement. -/
def Obligations.DocumentWordsDecode : Prop :=
  decodeWord 0x00E0 = .ok .clearScreen ∧ decodeWord 0x00EE = .ok .ret ∧ decodeWord 0x1ABC = .ok (.jump 0xABC) ∧
  decodeWord 0x2123 = .ok (.call 0x123) ∧ decodeWord 0x3140 = .ok (.skipIfEqualByte 1 0x40) ∧
  decodeWord 0x4140 = .ok (.skipIfNotEqualByte 1 0x40) ∧ decodeWord 0x5120 = .ok (.skipIfRegistersEqual 1 2) ∧
  decodeWord 0x6112 = .ok (.loadByte 1 0x12) ∧ decodeWord 0x7101 = .ok (.addByte 1 0x01) ∧
  decodeWord 0x87B1 = .ok (.or 7 0xB)

/-! ### Invariants and whole-machine rules -/

/-- R14, R15, R28: the invariant holds after construction. -/
def Obligations.InvariantHoldsAtReset : Prop := Invariant State.reset

/-- R14, R15, R28 [derived there]: every step, from any state with the invariant, keeps it: memory in canonical form, at
most 16 return addresses, `PC` at most 0x10FE, return addresses at most 4096. -/
def Obligations.StepKeepsTheInvariant : Prop :=
  ∀ s t : State, Invariant s → step s = .next t → Invariant t

/-- R186 to R190, R193 (host schedule D27; that keys and acknowledgements stay enabled on a faulted machine is the model's
choice, log 19): no move of the host's, in any schedule, breaks the invariant. -/
def Obligations.EveryScheduleKeepsTheInvariant : Prop :=
  ∀ (moves : List Move) (h h' : Session), Invariant h.machine → h.run moves = .next h' → Invariant h'.machine

/-- R22, R140, R185: the key latch is the host's alone; no step changes it. -/
def Obligations.StepNeverWritesKeys : Prop :=
  ∀ s t : State, step s = .next t → t.keys = s.keys

/-- R21, R129: the Machine never clears `REDRAW`, and only CLEAR-SCREEN and DRAW-SPRITE touch it or the screen. -/
def Obligations.RedrawIsOnlySetAndOnlyByDrawing : Prop :=
  ∀ (i : Instr) (s t : State), exec i s = .next t →
    (s.redraw = true → t.redraw = true) ∧
    (i ≠ .clearScreen → (∀ x y n, i ≠ .drawSprite x y n) → t.redraw = s.redraw ∧ t.fb = s.fb)

/-- R42, R48: only STORE-BCD-DIGITS and STORE-REGISTERS-TO-MEMORY write `MEM`. -/
def Obligations.OnlyTheTwoStoresWriteMemory : Prop :=
  ∀ (i : Instr) (s t : State), exec i s = .next t →
    (∀ x, i ≠ .storeBcdDigits x ∧ i ≠ .storeRegistersToMemory x) → t.mem = s.mem

/-- R15, R16, R84: only CALL and RETURN touch `SP`, only CALL writes the stack, and no fault changes either. -/
def Obligations.OnlyCallAndReturnTouchTheStack : Prop :=
  ∀ (i : Instr) (s t : State), exec i s = .next t →
    ((∀ nnn, i ≠ .call nnn) → t.stack = s.stack) ∧
    ((∀ nnn, i ≠ .call nnn) → i ≠ .ret → t.sp = s.sp)

/-- R13: only LOAD-INDEX, ADD-TO-INDEX and LOAD-FONT-ADDRESS write `I`. -/
def Obligations.OnlyThreeInstructionsWriteTheIndex : Prop :=
  ∀ (i : Instr) (s t : State), exec i s = .next t → (∀ nnn, i ≠ .loadIndex nnn) →
    (∀ x, i ≠ .addToIndex x ∧ i ≠ .loadFontAddress x) → t.index = s.index

/-- R120, R192 (decisions D11, D13): an instruction that consumes no free value behaves the same whatever the free values
are: it neither reads nor advances their position. -/
def Obligations.OtherInstructionsIgnoreFreeValues : Prop :=
  ∀ (i : Instr) (s : State) (d : Nat), ¬ ConsumesFreeValue i →
    exec i { s with draws := d } = onNext (fun t => { t with draws := d }) (exec i s)

/-- R18: no instruction reads `ST`; every instruction but SET-SOUND leaves it as it is. -/
def Obligations.SoundTimerIsReadByNoInstruction : Prop :=
  ∀ (i : Instr) (s : State) (b : Byte), (∀ x, i ≠ .setSound x) →
    exec i { s with st := b } = onNext (fun t => { t with st := b }) (exec i s)

/-! ### Control flow and skips -/

/-- R175: SYS has no execution effect; every `0nnn` but the two constants is SYS. -/
def Obligations.SysHasNoEffect : Prop :=
  ∀ (nnn : Addr) (s : State),
    (nnn ≠ 0x0E0 → nnn ≠ 0x0EE → decodeWord (0x0#4 ++ nnn) = .ok (.sys nnn)) ∧
    ∃ t, exec (.sys nnn) s = .next t ∧ Frame (· = .pc) s t ∧ t.view .pc = (s.view .pc + 2) % 65536

/-- R80: JUMP writes `nnn` to `PC` and nothing else. -/
def Obligations.JumpSetsPc : Prop :=
  ∀ (nnn : Addr) (s : State),
    decodeWord (0x1#4 ++ nnn) = .ok (.jump nnn) ∧
    ∃ t, exec (.jump nnn) s = .next t ∧ Frame (· = .pc) s t ∧ t.view .pc = nnn.toNat

/-- R81 (the overflow fault is decision D5): CALL with a free slot stores the address after itself there and jumps;
with 16 addresses held it raises StackOverflow and changes nothing else. -/
def Obligations.CallPushesOrOverflows : Prop :=
  ∀ (nnn : Addr) (s : State),
    decodeWord (0x2#4 ++ nnn) = .ok (.call nnn) ∧
    (∀ h : s.view .sp < 16, ∃ t, exec (.call nnn) s = .next t ∧
      Frame (fun p => p = .pc ∨ p = .sp ∨ p = .stack ⟨s.view .sp, h⟩) s t ∧
      t.view (.stack ⟨s.view .sp, h⟩) = (s.view .pc + 2) % 65536 ∧ t.view .sp = s.view .sp + 1 ∧
      t.view .pc = nnn.toNat) ∧
    (16 ≤ s.view .sp →
      exec (.call nnn) s = .next { s with fault := some ⟨.stackOverflow, some (0x2#4 ++ nnn), s.pc⟩ })

/-- R82 (the underflow fault is decision D5), under the invariant `SP ≤ 16`: RETURN loads the last return address and
keeps the slot; with none held it raises StackUnderflow and changes nothing else. -/
def Obligations.ReturnPopsOrUnderflows : Prop :=
  ∀ s : State,
    decodeWord 0x00EE = .ok .ret ∧
    (∀ k : Fin 16, s.view .sp = k.val + 1 → ∃ t, exec .ret s = .next t ∧ Frame (fun p => p = .pc ∨ p = .sp) s t ∧
      t.view .sp = k.val ∧ t.view .pc = s.view (.stack k)) ∧
    (s.view .sp = 0 → exec .ret s = .next { s with fault := some ⟨.stackUnderflow, some 0x00EE, s.pc⟩ })

/-- The model's choice where the spec gives no state (log 6): RETURN with `SP` above 16, which StepKeepsTheInvariant
rules out of every run, stops by name. -/
def Obligations.ReturnWithoutASlotStops : Prop :=
  ∀ s : State, 16 < s.view .sp → exec .ret s = .fault .noStackSlot

/-- R81, R82, R84: a CALL, and RETURN when the stack is as CALL left it, resume after the CALL with `SP` restored; only
`PC` and the used slot differ. -/
def Obligations.ReturnUndoesCall : Prop :=
  ∀ (nnn : Addr) (s t : State) (h : s.view .sp < 16), exec (.call nnn) s = .next t →
    ∃ u, exec .ret t = .next u ∧ u.view .pc = (s.view .pc + 2) % 65536 ∧
      Frame (fun p => p = .pc ∨ p = .stack ⟨s.view .sp, h⟩) s u

/-- R83 (no reduction to 12 bits is decision D32): JUMP-WITH-OFFSET writes `nnn + V[0]` to `PC`. -/
def Obligations.JumpWithOffsetAddsV0 : Prop :=
  ∀ (nnn : Addr) (s : State),
    decodeWord (0xB#4 ++ nnn) = .ok (.jumpWithOffset nnn) ∧
    ∃ t, exec (.jumpWithOffset nnn) s = .next t ∧ Frame (· = .pc) s t ∧
      t.view .pc = nnn.toNat + s.view (.reg 0)

/-- R91, R92: the skips on a literal byte add 2 more to `PC` when their condition holds, and change nothing else. -/
def Obligations.ByteSkips : Prop :=
  ∀ (x : RegIdx) (kk : Byte) (s : State),
    decodeWord (0x3#4 ++ x ++ kk) = .ok (.skipIfEqualByte x kk) ∧
    decodeWord (0x4#4 ++ x ++ kk) = .ok (.skipIfNotEqualByte x kk) ∧
    (∃ t, exec (.skipIfEqualByte x kk) s = .next t ∧ Frame (· = .pc) s t ∧
      t.view .pc = (s.view .pc + if s.view (.reg x) = kk.toNat then 4 else 2) % 65536) ∧
    (∃ t, exec (.skipIfNotEqualByte x kk) s = .next t ∧ Frame (· = .pc) s t ∧
      t.view .pc = (s.view .pc + if s.view (.reg x) = kk.toNat then 2 else 4) % 65536)

/-- R93, R94 (that any low nibble `n` decodes alike is decision D3): the skips on two registers. -/
def Obligations.RegisterSkips : Prop :=
  ∀ (x y : RegIdx) (n : Nibble) (s : State),
    decodeWord (0x5#4 ++ x ++ y ++ n) = .ok (.skipIfRegistersEqual x y) ∧
    decodeWord (0x9#4 ++ x ++ y ++ n) = .ok (.skipIfRegistersNotEqual x y) ∧
    (∃ t, exec (.skipIfRegistersEqual x y) s = .next t ∧ Frame (· = .pc) s t ∧
      t.view .pc = (s.view .pc + if s.view (.reg x) = s.view (.reg y) then 4 else 2) % 65536) ∧
    (∃ t, exec (.skipIfRegistersNotEqual x y) s = .next t ∧ Frame (· = .pc) s t ∧
      t.view .pc = (s.view .pc + if s.view (.reg x) = s.view (.reg y) then 2 else 4) % 65536)

/-! ### Loads, arithmetic, logic, shifts, random -/

/-- R102, R104 (the meanings are the names', derived in the spec; sub-opcode 0 is GK1): LOAD-BYTE and LOAD. -/
def Obligations.LoadsWriteTheirSource : Prop :=
  ∀ (x y : RegIdx) (kk : Byte) (s : State),
    decodeWord (0x6#4 ++ x ++ kk) = .ok (.loadByte x kk) ∧
    decodeWord (0x8#4 ++ x ++ y ++ 0x0#4) = .ok (.load x y) ∧
    (∃ t, exec (.loadByte x kk) s = .next t ∧ Frame (fun p => p = .pc ∨ p = .reg x) s t ∧
      t.view (.reg x) = kk.toNat ∧ t.view .pc = (s.view .pc + 2) % 65536) ∧
    (∃ t, exec (.load x y) s = .next t ∧ Frame (fun p => p = .pc ∨ p = .reg x) s t ∧
      t.view (.reg x) = s.view (.reg y) ∧ t.view .pc = (s.view .pc + 2) % 65536)

/-- R103: ADD-BYTE wraps silently; no flag register but the destination is written. -/
def Obligations.AddByteWrapsSilently : Prop :=
  ∀ (x : RegIdx) (kk : Byte) (s : State),
    decodeWord (0x7#4 ++ x ++ kk) = .ok (.addByte x kk) ∧
    ∃ t, exec (.addByte x kk) s = .next t ∧ Frame (fun p => p = .pc ∨ p = .reg x) s t ∧
      t.view (.reg x) = (s.view (.reg x) + kk.toNat) % 256 ∧ t.view .pc = (s.view .pc + 2) % 65536

/-- R105: OR, its number the document's own, writes no flag. -/
def Obligations.OrCombinesRegisters : Prop :=
  ∀ (x y : RegIdx) (s : State),
    decodeWord (0x8#4 ++ x ++ y ++ 0x1#4) = .ok (.or x y) ∧
    ∃ t, exec (.or x y) s = .next t ∧ Frame (fun p => p = .pc ∨ p = .reg x) s t ∧
      t.view (.reg x) = s.view (.reg x) ||| s.view (.reg y) ∧ t.view .pc = (s.view .pc + 2) % 65536

/-- R106, R107 (their numbers are GK1): AND and XOR write no flag. -/
def Obligations.AndXorCombineRegisters : Prop :=
  ∀ (x y : RegIdx) (s : State),
    decodeWord (0x8#4 ++ x ++ y ++ 0x2#4) = .ok (.and x y) ∧
    decodeWord (0x8#4 ++ x ++ y ++ 0x3#4) = .ok (.xor x y) ∧
    (∃ t, exec (.and x y) s = .next t ∧ Frame (fun p => p = .pc ∨ p = .reg x) s t ∧
      t.view (.reg x) = s.view (.reg x) &&& s.view (.reg y) ∧ t.view .pc = (s.view .pc + 2) % 65536) ∧
    (∃ t, exec (.xor x y) s = .next t ∧ Frame (fun p => p = .pc ∨ p = .reg x) s t ∧
      t.view (.reg x) = s.view (.reg x) ^^^ s.view (.reg y) ∧ t.view .pc = (s.view .pc + 2) % 65536)

/-- R108 for `x ≠ 15` (its number is GK1; `x = 15` is AliasedFlagIsAFreeValue): ADD wraps the sum and sets the flag to
the carry, from the operands before the instruction. -/
def Obligations.AddSetsCarry : Prop :=
  ∀ (x y : RegIdx) (s : State),
    decodeWord (0x8#4 ++ x ++ y ++ 0x4#4) = .ok (.add x y) ∧
    (x ≠ 15 → ∃ t, exec (.add x y) s = .next t ∧ Frame (fun p => p = .pc ∨ p = .reg x ∨ p = .reg 15) s t ∧
      t.view (.reg x) = (s.view (.reg x) + s.view (.reg y)) % 256 ∧
      t.view (.reg 15) = (if s.view (.reg x) + s.view (.reg y) ≥ 256 then 1 else 0) ∧
      t.view .pc = (s.view .pc + 2) % 65536)

/-- R109, R111 for `x ≠ 15` (their numbers are GK1; the strict comparison is 90_conflicts.md C4): SUB and SUBN wrap the
difference into `V[x]` and set the flag when the minuend is strictly greater. -/
def Obligations.SubtractionsSetStrictFlag : Prop :=
  ∀ (x y : RegIdx) (s : State),
    decodeWord (0x8#4 ++ x ++ y ++ 0x5#4) = .ok (.sub x y) ∧
    decodeWord (0x8#4 ++ x ++ y ++ 0x7#4) = .ok (.subn x y) ∧
    (x ≠ 15 → ∃ t, exec (.sub x y) s = .next t ∧ Frame (fun p => p = .pc ∨ p = .reg x ∨ p = .reg 15) s t ∧
      t.view (.reg x) = (s.view (.reg x) + 256 - s.view (.reg y)) % 256 ∧
      t.view (.reg 15) = (if s.view (.reg x) > s.view (.reg y) then 1 else 0) ∧
      t.view .pc = (s.view .pc + 2) % 65536) ∧
    (x ≠ 15 → ∃ t, exec (.subn x y) s = .next t ∧ Frame (fun p => p = .pc ∨ p = .reg x ∨ p = .reg 15) s t ∧
      t.view (.reg x) = (s.view (.reg y) + 256 - s.view (.reg x)) % 256 ∧
      t.view (.reg 15) = (if s.view (.reg y) > s.view (.reg x) then 1 else 0) ∧
      t.view .pc = (s.view .pc + 2) % 65536)

/-- R110, R112 for `x ≠ 15` (their numbers are GK1): the shifts by one bit of `V[x]` alone; the flag is the bit shifted
out. -/
def Obligations.ShiftsMoveOneBit : Prop :=
  ∀ (x y : RegIdx) (s : State),
    decodeWord (0x8#4 ++ x ++ y ++ 0x6#4) = .ok (.shiftRight x y) ∧
    decodeWord (0x8#4 ++ x ++ y ++ 0xE#4) = .ok (.shiftLeft x y) ∧
    (x ≠ 15 → ∃ t, exec (.shiftRight x y) s = .next t ∧ Frame (fun p => p = .pc ∨ p = .reg x ∨ p = .reg 15) s t ∧
      t.view (.reg x) = s.view (.reg x) / 2 ∧ t.view (.reg 15) = s.view (.reg x) % 2 ∧
      t.view .pc = (s.view .pc + 2) % 65536) ∧
    (x ≠ 15 → ∃ t, exec (.shiftLeft x y) s = .next t ∧ Frame (fun p => p = .pc ∨ p = .reg x ∨ p = .reg 15) s t ∧
      t.view (.reg x) = s.view (.reg x) * 2 % 256 ∧ t.view (.reg 15) = s.view (.reg x) / 128 ∧
      t.view .pc = (s.view .pc + 2) % 65536)

/-- R101 (decision D11, log 1): with `x = 15` the five flag-writing operations complete, and the final `V[15]` is the next
free byte, of which nothing is known. -/
def Obligations.AliasedFlagIsAFreeValue : Prop :=
  ∀ (y : RegIdx) (s : State),
    ∀ i ∈ [Instr.add 15 y, Instr.sub 15 y, Instr.shiftRight 15 y, Instr.subn 15 y, Instr.shiftLeft 15 y],
      ∃ t, exec i s = .next t ∧ Frame (fun p => p = .pc ∨ p = .reg 15 ∨ p = .draws) s t ∧
        t.view (.reg 15) = (Config.freeByte (s.view .draws)).toNat ∧ t.view .draws = s.view .draws + 1 ∧
        t.view .pc = (s.view .pc + 2) % 65536

/-- R121, R120 (the free input is decision D13, log 1): RANDOM-AND-MASK writes the next free byte masked by `kk`; the old
value plays no part, and no bit outside the mask is set. -/
def Obligations.RandomIsMasked : Prop :=
  ∀ (x : RegIdx) (kk : Byte) (s : State),
    decodeWord (0xC#4 ++ x ++ kk) = .ok (.randomAndMask x kk) ∧
    ∃ t, exec (.randomAndMask x kk) s = .next t ∧ Frame (fun p => p = .pc ∨ p = .reg x ∨ p = .draws) s t ∧
      t.view (.reg x) = (Config.freeByte (s.view .draws)).toNat &&& kk.toNat ∧
      t.view (.reg x) &&& (255 - kk.toNat) = 0 ∧ t.view .draws = s.view .draws + 1 ∧
      t.view .pc = (s.view .pc + 2) % 65536

/-! ### Drawing -/

/-- R126: CLEAR-SCREEN turns every cell off and sets `REDRAW`, whatever was there. -/
def Obligations.ClearScreenBlanks : Prop :=
  decodeWord 0x00E0 = .ok .clearScreen ∧
  ∀ s : State, ∃ t, exec .clearScreen s = .next t ∧
    Frame (fun p => p = .pc ∨ p = .redraw ∨ ∃ x y, p = .cell x y) s t ∧
    (∀ x y, t.view (.cell x y) = 0) ∧ t.view .redraw = 1 ∧ t.view .pc = (s.view .pc + 2) % 65536

/-- R127, R130 (bit order GK4, log 4; `reject` D8, log 7): a sprite in memory and on the screen is drawn: covered cells
toggle, `V[15]` is the collision, `REDRAW` is set if a cell is covered. The origin is read before `V[15]` is written. -/
def Obligations.DrawSpriteTogglesCells : Prop :=
  ∀ (x y : RegIdx) (n : Nibble) (s : State),
    decodeWord (0xD#4 ++ x ++ y ++ n) = .ok (.drawSprite x y n) ∧
    (n = 0 ∨ (s.view .index + n.toNat - 1 ≤ 4095 ∧ s.view (.reg x) % 64 ≤ 56 ∧ s.view (.reg y) % 32 + n.toNat ≤ 32) →
      ∃ t, exec (.drawSprite x y n) s = .next t ∧
        Frame (fun p => p = .pc ∨ p = .reg 15 ∨ p = .redraw ∨ ∃ cx cy, p = .cell cx cy) s t ∧
        Drawn (SpriteCovers s Prod.mk (s.view (.reg x) % 64) (s.view (.reg y) % 32) n.toNat) s t ∧
        t.view .pc = (s.view .pc + 2) % 65536)

/-- R127, R206, R207, R212 (decisions D6, D8, D19, D28): a sprite that leaves memory faults first for that; one in
memory whose extent leaves the screen faults for that; nothing else changes. -/
def Obligations.DrawSpriteFaults : Prop :=
  ∀ (x y : RegIdx) (n : Nibble) (s : State), n ≠ 0 →
    (4095 < s.view .index + n.toNat - 1 → exec (.drawSprite x y n) s =
      .next { s with fault := some ⟨.memoryOutOfRange, some (0xD#4 ++ x ++ y ++ n), s.pc⟩ }) ∧
    (s.view .index + n.toNat - 1 ≤ 4095 → 56 < s.view (.reg x) % 64 ∨ 32 < s.view (.reg y) % 32 + n.toNat →
      exec (.drawSprite x y n) s =
        .next { s with fault := some ⟨.framebufferOutOfRange, some (0xD#4 ++ x ++ y ++ n), s.pc⟩ })

/-- R128, R130 (bit order GK4, log 4; neither policy is in force, log 7): the two alternate policies. `clip` drops the
sprite pixels beyond the edge, `wrap` places them mod 64 and mod 32; neither ever rejects. -/
def Obligations.AlternateEdgePolicies : Prop :=
  ∀ (x y : RegIdx) (n : Nibble) (s : State), n = 0 ∨ s.view .index + n.toNat - 1 ≤ 4095 →
    (∃ t, State.drawSprite .clip x y n s = .ok t ∧
      Drawn (SpriteCovers s Prod.mk (s.view (.reg x) % 64) (s.view (.reg y) % 32) n.toNat) s t) ∧
    (∃ t, State.drawSprite .wrap x y n s = .ok t ∧
      Drawn (SpriteCovers s (fun cx cy => (cx % 64, cy % 32)) (s.view (.reg x) % 64) (s.view (.reg y) % 32) n.toNat)
        s t)

/-- R127 case (f), 95_test_vectors.md S6 (which cells a sprite covers rests on the bit order GK4 of R130, log 4; the
policy in force is D8, log 7): drawing twice at one place, without a fault, restores every cell. The second
draw collides exactly where the first turned a cell on: when some covered cell was off, and so, from a blank screen as in
S6, when some sprite byte is not 0. Case (f)'s words, read over every screen, would also claim a collision when all the
covered cells were on at first; R127's own pseudocode gives none there (log 14). -/
def Obligations.DrawingTwiceRestoresTheScreen : Prop :=
  ∀ (x y : RegIdx) (n : Nibble) (s t : State), x ≠ 15 → y ≠ 15 → Safe s →
    exec (.drawSprite x y n) s = .next t → Safe t →
    ∃ u, exec (.drawSprite x y n) t = .next u ∧ Safe u ∧ (∀ cx cy, u.view (.cell cx cy) = s.view (.cell cx cy)) ∧
      (u.view (.reg 15) = 1 ↔ ∃ (cx : Fin 64) (cy : Fin 32),
        SpriteCovers s Prod.mk (s.view (.reg x) % 64) (s.view (.reg y) % 32) n.toNat cx cy ∧
        s.view (.cell cx cy) = 0) ∧
      ((∀ cx cy, s.view (.cell cx cy) = 0) →
        (u.view (.reg 15) = 1 ↔ ∃ r, r < n.toNat ∧ s.view (.byte (s.view .index + r)) ≠ 0))

/-! ### Keys and timers -/

/-- R141, R142 (R140's fault is D9): with a key number in range the key skips test the latch as it is now. -/
def Obligations.KeySkips : Prop :=
  ∀ (x : RegIdx) (s : State),
    decodeWord (0xE#4 ++ x ++ 0x9E#8) = .ok (.skipIfKeyPressed x) ∧
    decodeWord (0xE#4 ++ x ++ 0xA1#8) = .ok (.skipIfKeyNotPressed x) ∧
    ∀ h : s.view (.reg x) < 16,
      (∃ t, exec (.skipIfKeyPressed x) s = .next t ∧ Frame (· = .pc) s t ∧
        t.view .pc = (s.view .pc + if s.view (.key ⟨s.view (.reg x), h⟩) = 1 then 4 else 2) % 65536) ∧
      (∃ t, exec (.skipIfKeyNotPressed x) s = .next t ∧ Frame (· = .pc) s t ∧
        t.view .pc = (s.view .pc + if s.view (.key ⟨s.view (.reg x), h⟩) = 1 then 2 else 4) % 65536)

/-- R140, R208, R164, R209 (decisions D9, D10, D19): a key number or a digit above 15 faults, unmasked, and nothing else
changes. -/
def Obligations.KeyAndDigitOperandsAreChecked : Prop :=
  ∀ (x : RegIdx) (s : State), 15 < s.view (.reg x) →
    exec (.skipIfKeyPressed x) s =
      .next { s with fault := some ⟨.keyIndexOutOfRange, some (0xE#4 ++ x ++ 0x9E#8), s.pc⟩ } ∧
    exec (.skipIfKeyNotPressed x) s =
      .next { s with fault := some ⟨.keyIndexOutOfRange, some (0xE#4 ++ x ++ 0xA1#8), s.pc⟩ } ∧
    exec (.loadFontAddress x) s =
      .next { s with fault := some ⟨.fontDigitOutOfRange, some (0xF#4 ++ x ++ 0x29#8), s.pc⟩ }

/-- R143 (its low byte is GK2): with a key down the lowest goes to `V[x]`; with none down the instruction changes nothing
at all, `PC` back at itself. -/
def Obligations.BlockWaitTakesTheLeastKeyOrRetries : Prop :=
  ∀ (x : RegIdx) (s : State),
    decodeWord (0xF#4 ++ x ++ 0x0A#8) = .ok (.blockWaitForKey x) ∧
    (∀ k : Fin 16, s.view (.key k) = 1 → (∀ j : Fin 16, j < k → s.view (.key j) = 0) →
      ∃ t, exec (.blockWaitForKey x) s = .next t ∧ Frame (fun p => p = .pc ∨ p = .reg x) s t ∧
        t.view (.reg x) = k.val ∧ t.view .pc = (s.view .pc + 2) % 65536) ∧
    ((∀ k, s.view (.key k) = 0) → ∃ t, exec (.blockWaitForKey x) s = .next t ∧ Frame (fun _ => False) s t)

/-- R150, R151, R152 (their low bytes are GK2): the timer instructions, before the step's decay
(TimersDecayOncePerStep). -/
def Obligations.TimerInstructions : Prop :=
  ∀ (x : RegIdx) (s : State),
    decodeWord (0xF#4 ++ x ++ 0x07#8) = .ok (.loadDelay x) ∧ decodeWord (0xF#4 ++ x ++ 0x15#8) = .ok (.setDelay x) ∧
    decodeWord (0xF#4 ++ x ++ 0x18#8) = .ok (.setSound x) ∧
    (∃ t, exec (.loadDelay x) s = .next t ∧ Frame (fun p => p = .pc ∨ p = .reg x) s t ∧
      t.view (.reg x) = s.view .dt ∧ t.view .pc = (s.view .pc + 2) % 65536) ∧
    (∃ t, exec (.setDelay x) s = .next t ∧ Frame (fun p => p = .pc ∨ p = .dt) s t ∧
      t.view .dt = s.view (.reg x) ∧ t.view .pc = (s.view .pc + 2) % 65536) ∧
    (∃ t, exec (.setSound x) s = .next t ∧ Frame (fun p => p = .pc ∨ p = .st) s t ∧
      t.view .st = s.view (.reg x) ∧ t.view .pc = (s.view .pc + 2) % 65536)

/-! ### The index register and memory -/

/-- R161, R163 (LOAD-INDEX's meaning is its name's; ADD-TO-INDEX's low byte is GK2): `I` takes `nnn`, or adds `V[x]` with
16-bit wraparound and no flag. -/
def Obligations.IndexInstructions : Prop :=
  ∀ (nnn : Addr) (x : RegIdx) (s : State),
    decodeWord (0xA#4 ++ nnn) = .ok (.loadIndex nnn) ∧ decodeWord (0xF#4 ++ x ++ 0x1E#8) = .ok (.addToIndex x) ∧
    (∃ t, exec (.loadIndex nnn) s = .next t ∧ Frame (fun p => p = .pc ∨ p = .index) s t ∧
      t.view .index = nnn.toNat ∧ t.view .pc = (s.view .pc + 2) % 65536) ∧
    (∃ t, exec (.addToIndex x) s = .next t ∧ Frame (fun p => p = .pc ∨ p = .index) s t ∧
      t.view .index = (s.view .index + s.view (.reg x)) % 65536 ∧ t.view .pc = (s.view .pc + 2) % 65536)

/-- R164 for a digit in range (its low byte is GK2; out of range is KeyAndDigitOperandsAreChecked): `I` takes the glyph's
address. -/
def Obligations.FontAddressOfADigit : Prop :=
  ∀ (x : RegIdx) (s : State),
    decodeWord (0xF#4 ++ x ++ 0x29#8) = .ok (.loadFontAddress x) ∧
    (s.view (.reg x) ≤ 15 → ∃ t, exec (.loadFontAddress x) s = .next t ∧ Frame (fun p => p = .pc ∨ p = .index) s t ∧
      t.view .index = 0x050 + 5 * s.view (.reg x) ∧ t.view .pc = (s.view .pc + 2) % 65536)

/-- R165 in range (its low byte is GK2), memory in canonical form: the three digits go to `I`, `I + 1`, `I + 2`, and every
other byte stays. -/
def Obligations.BcdStoresThreeDigits : Prop :=
  ∀ (x : RegIdx) (s : State),
    decodeWord (0xF#4 ++ x ++ 0x33#8) = .ok (.storeBcdDigits x) ∧
    (s.mem.wf = true → s.view .index + 2 ≤ 4095 → ∃ t, exec (.storeBcdDigits x) s = .next t ∧
      Frame (fun p => p = .pc ∨ ∃ k, k < 3 ∧ p = .byte (s.view .index + k)) s t ∧
      t.view (.byte (s.view .index)) = s.view (.reg x) / 100 ∧
      t.view (.byte (s.view .index + 1)) = s.view (.reg x) / 10 % 10 ∧
      t.view (.byte (s.view .index + 2)) = s.view (.reg x) % 10 ∧ t.view .pc = (s.view .pc + 2) % 65536)

/-- R166 in range (its low byte is GK2), memory in canonical form: `V[0]` to `V[x]` go to `I` to `I + x`, and every other
byte, `I` too, stays. -/
def Obligations.StoreRegistersWritesARange : Prop :=
  ∀ (x : RegIdx) (s : State),
    decodeWord (0xF#4 ++ x ++ 0x55#8) = .ok (.storeRegistersToMemory x) ∧
    (s.mem.wf = true → s.view .index + x.toNat ≤ 4095 → ∃ t, exec (.storeRegistersToMemory x) s = .next t ∧
      Frame (fun p => p = .pc ∨ ∃ k, k ≤ x.toNat ∧ p = .byte (s.view .index + k)) s t ∧
      (∀ k : RegIdx, k.toNat ≤ x.toNat → t.view (.byte (s.view .index + k.toNat)) = s.view (.reg k)) ∧
      t.view .pc = (s.view .pc + 2) % 65536)

/-- R167 in range (its low byte is GK2): `V[0]` to `V[x]` are loaded from `I` to `I + x`; the other registers, `I` and
memory stay. -/
def Obligations.LoadRegistersReadsARange : Prop :=
  ∀ (x : RegIdx) (s : State),
    decodeWord (0xF#4 ++ x ++ 0x65#8) = .ok (.loadRegistersFromMemory x) ∧
    (s.view .index + x.toNat ≤ 4095 → ∃ t, exec (.loadRegistersFromMemory x) s = .next t ∧
      Frame (fun p => p = .pc ∨ ∃ k : RegIdx, k.toNat ≤ x.toNat ∧ p = .reg k) s t ∧
      (∀ k : RegIdx, k.toNat ≤ x.toNat → t.view (.reg k) = s.view (.byte (s.view .index + k.toNat))) ∧
      t.view .pc = (s.view .pc + 2) % 65536)

/-- R38, R51, R160, R206 (decisions D6, D19): a transfer whose highest address is above 4095 faults before any write;
addresses do not wrap. -/
def Obligations.TransfersAreRangeChecked : Prop :=
  ∀ (x : RegIdx) (s : State),
    (4095 < s.view .index + 2 → exec (.storeBcdDigits x) s =
      .next { s with fault := some ⟨.memoryOutOfRange, some (0xF#4 ++ x ++ 0x33#8), s.pc⟩ }) ∧
    (4095 < s.view .index + x.toNat → exec (.storeRegistersToMemory x) s =
      .next { s with fault := some ⟨.memoryOutOfRange, some (0xF#4 ++ x ++ 0x55#8), s.pc⟩ }) ∧
    (4095 < s.view .index + x.toNat → exec (.loadRegistersFromMemory x) s =
      .next { s with fault := some ⟨.memoryOutOfRange, some (0xF#4 ++ x ++ 0x65#8), s.pc⟩ })

/-- R47, R40, R248 [derived there]: what STORE-REGISTERS-TO-MEMORY has written is what the next fetch of those bytes
reads, the lower address the high byte. -/
def Obligations.StoresAreSeenByTheNextFetch : Prop :=
  ∀ (x k j : RegIdx) (s t : State), s.mem.wf = true → s.view .index + x.toNat ≤ 4095 →
    exec (.storeRegistersToMemory x) s = .next t → j.toNat = k.toNat + 1 → j.toNat ≤ x.toNat →
    ∃ w, ({ t with pc := BitVec.ofNat 16 (s.view .index + k.toNat) } : State).fetch = some w ∧
      w.toNat = s.view (.reg k) * 256 + s.view (.reg j)

/-! ### The host's moves -/

/-- R232, R233, R186, R234 (the single load is decision D24), memory in canonical form: a ROM of at most 3584 bytes lands
at 0x200 and touches nothing else; a longer one is refused. A session that may load does load, and may load no more; one
that may not refuses the load; a step ends loading; no move gives it back. So in a schedule that runs to its end no load
and no step stands before a load. -/
def Obligations.RomLoadsOnceAt0x200 : Prop :=
  (∀ (rom : List Byte) (s : State), s.mem.wf = true →
    (rom.length ≤ 3584 → ∃ t, s.hostLoad rom = .next t ∧
      Frame (fun p => ∃ k, k < rom.length ∧ p = .byte (0x200 + k)) s t ∧
      ∀ k (h : k < rom.length), t.view (.byte (0x200 + k)) = rom[k].toNat) ∧
    (3584 < rom.length → s.hostLoad rom = .refused .loadTooLong)) ∧
  (∀ (h : Session) (rom : List Byte), h.mayLoad = false → h.act (.load rom) = .refused .loadNotAllowed) ∧
  (∀ (h : Session) (rom : List Byte), h.mayLoad = true →
    (rom.length ≤ 3584 → ∃ t, h.machine.hostLoad rom = .next t ∧ h.act (.load rom) = .next ⟨t, false⟩) ∧
    (3584 < rom.length → h.act (.load rom) = .refused .loadTooLong)) ∧
  (∀ (h h' : Session) (m : Move), h.act m = .next h' → (m = .step ∨ ∃ rom, m = .load rom) → h'.mayLoad = false) ∧
  (∀ (h h' : Session) (m : Move), h.act m = .next h' → h.mayLoad = false → h'.mayLoad = false) ∧
  (∀ (h h' : Session) (before after : List Move) (rom : List Byte),
    h.run (before ++ .load rom :: after) = .next h' → ∀ m ∈ before, m ≠ .step ∧ ∀ rom', m ≠ .load rom')

/-- R187, R188: the Input Source touches `KEYS` only, the frame acknowledgement clears `REDRAW` only. R193: a session's
moves are these on its machine, enabled in every session (on a faulted machine too: the model's choice, log 19), and leave
its right to load; its step move is the machine's step. -/
def Obligations.HostTouchesOnlyItsOwn : Prop :=
  (∀ (s : State) (latch : Vector Bool 16) (k : Fin 16) (b : Bool),
    (Frame (fun p => ∃ j, p = .key j) s (s.hostKeys latch) ∧ (s.hostKeys latch).keys = latch) ∧
    (Frame (· = .key k) s (s.hostKey k b) ∧ (s.hostKey k b).view (.key k) = bit b) ∧
    (Frame (· = .redraw) s s.hostFrameAck ∧ s.hostFrameAck.view .redraw = 0)) ∧
  ∀ (h : Session) (latch : Vector Bool 16) (k : Fin 16) (b : Bool),
    h.act (.keys latch) = .next ⟨h.machine.hostKeys latch, h.mayLoad⟩ ∧
    h.act (.key k b) = .next ⟨h.machine.hostKey k b, h.mayLoad⟩ ∧
    h.act .frameAck = .next ⟨h.machine.hostFrameAck, h.mayLoad⟩ ∧
    (∀ t, step h.machine = .next t → h.act .step = .next ⟨t, false⟩) ∧
    (∀ r, step h.machine = .fault r → h.act .step = .fault r)
end

