-- ==== Sys2Proof/Laws/Memory.lean ====
section
/-! SUPPORT. The laws of `MEM`: a read after a write to the same address, to another address, and the canonical form kept
by every memory operation (20_memory.md rules R38, R43). -/

namespace Sys2Proof.Machine

variable {m : Memory} {lo a a' : Nat} {b : Byte}

/-- Every address of a canonical list from `lo` upward is at least `lo`. -/
theorem Memory.wfFrom_mono {lo' : Nat} (h : Memory.wfFrom lo m = true) (hl : lo' ≤ lo) : Memory.wfFrom lo' m = true := by
  cases m with
  | nil => rfl
  | cons e rest =>
    obtain ⟨k, c⟩ := e
    simp only [Memory.wfFrom, Bool.and_eq_true, decide_eq_true_eq] at h ⊢
    exact ⟨⟨⟨hl.trans h.1.1.1, h.1.1.2⟩, h.1.2⟩, h.2⟩

/-- Below its first possible address a canonical list reads as the reset contents. -/
theorem Memory.read_below (h : Memory.wfFrom lo m = true) (ha : a < lo) : m.read a = resetByte a := by
  induction m generalizing lo with
  | nil => rfl
  | cons e rest ih =>
    obtain ⟨k, c⟩ := e
    simp only [Memory.wfFrom, Bool.and_eq_true, decide_eq_true_eq] at h
    rw [Memory.read, if_neg (by omega), ih h.2 (by omega)]

/-- A read of the address just written gives the byte written (R43). -/
theorem Memory.read_write_same (h : Memory.wfFrom lo m = true) (ha : lo ≤ a) : (m.write a b).read a = b := by
  induction m generalizing lo with
  | nil => unfold Memory.write; split <;> simp_all [Memory.read]
  | cons e rest ih =>
    obtain ⟨k, c⟩ := e
    simp only [Memory.wfFrom, Bool.and_eq_true, decide_eq_true_eq] at h
    unfold Memory.write
    split
    · split
      · rename_i hlt hb
        rw [Memory.read, if_neg (by omega), Memory.read_below h.2 (by omega), hb]
      · simp [Memory.read]
    · split
      · rename_i heq
        subst heq
        split
        · rename_i hb
          rw [Memory.read_below h.2 (by omega), hb]
        · simp [Memory.read]
      · rw [Memory.read, if_neg (by assumption)]
        exact ih h.2 (by omega)

/-- A write leaves every other address alone (R43). -/
theorem Memory.read_write_ne (hne : a' ≠ a) : (m.write a b).read a' = m.read a' := by
  induction m with
  | nil => unfold Memory.write; split <;> simp [Memory.read, hne]
  | cons e rest ih =>
    obtain ⟨k, c⟩ := e
    unfold Memory.write
    split
    · split <;> simp [Memory.read, hne]
    · split
      · rename_i heq
        subst heq
        split <;> simp [Memory.read, hne]
      · simp only [Memory.read, ih]

/-- A write inside `MEM` keeps the canonical form, from any start not above the address. -/
theorem Memory.wfFrom_write (h : Memory.wfFrom lo m = true) (ha : lo ≤ a) (hb : a < 4096) :
    Memory.wfFrom lo (m.write a b) = true := by
  induction m generalizing lo with
  | nil => unfold Memory.write; split <;> simp_all [Memory.wfFrom]
  | cons e rest ih =>
    obtain ⟨k, c⟩ := e
    have h0 := h
    simp only [Memory.wfFrom, Bool.and_eq_true, decide_eq_true_eq] at h
    obtain ⟨⟨⟨h1, h2⟩, h3⟩, h4⟩ := h
    unfold Memory.write
    split
    · split
      · exact h0
      · simp_all [Memory.wfFrom]
    · split
      · rename_i heq
        subst heq
        split
        · exact Memory.wfFrom_mono h4 (by omega)
        · simp_all [Memory.wfFrom]
      · simp only [Memory.wfFrom, Bool.and_eq_true, decide_eq_true_eq]
        exact ⟨⟨⟨h1, h2⟩, h3⟩, ih h4 (by omega)⟩

/-- A write inside `MEM` keeps the canonical form. -/
theorem Memory.wf_write (h : m.wf = true) (ha : a < 4096) : (m.write a b).wf = true :=
  Memory.wfFrom_write h (Nat.zero_le a) ha

/-- A read after a write, in one equation. -/
theorem Memory.read_write (h : m.wf = true) : (m.write a b).read a' = if a' = a then b else m.read a' := by
  split
  · rename_i heq
    subst heq
    exact Memory.read_write_same h (Nat.zero_le _)
  · exact Memory.read_write_ne (by assumption)

/-- Consecutive stores inside `MEM` keep the canonical form. -/
theorem Memory.wf_writeAll {bs : List Byte} (h : m.wf = true) (ha : a + bs.length ≤ 4096) : (m.writeAll a bs).wf = true := by
  induction bs generalizing m a with
  | nil => exact h
  | cons c bs ih =>
    rw [List.length_cons] at ha
    exact ih (Memory.wf_write h (by omega)) (by omega)

/-- Consecutive stores leave every address outside them alone, whatever the list. -/
theorem Memory.read_writeAll_outside {bs : List Byte} (h : a' < a ∨ a + bs.length ≤ a') :
    (m.writeAll a bs).read a' = m.read a' := by
  induction bs generalizing m a with
  | nil => rfl
  | cons c bs ih =>
    rw [List.length_cons] at h
    rw [Memory.writeAll, ih (by omega), Memory.read_write_ne (by omega)]

/-- Consecutive stores: each address in range reads its own byte. -/
theorem Memory.read_writeAll_inside {bs : List Byte} (h : m.wf = true) (ha : a + bs.length ≤ 4096) {k : Nat}
    (hk : k < bs.length) : (m.writeAll a bs).read (a + k) = bs[k] := by
  induction bs generalizing m a k with
  | nil => simp at hk
  | cons c bs ih =>
    rw [List.length_cons] at ha hk
    rw [Memory.writeAll]
    cases k with
    | zero =>
      rw [Memory.read_writeAll_outside (by omega), Nat.add_zero, Memory.read_write_same h (Nat.zero_le _)]
      rfl
    | succ k =>
      have := ih (m := m.write a c) (a := a + 1) (k := k) (Memory.wf_write h (by omega)) (by omega) (by omega)
      rw [show a + (k + 1) = a + 1 + k by omega, this]
      rfl

end Sys2Proof.Machine
end

