-- ==== Sys2Proof/Laws/State.lean ====
section
/-! SUPPORT. One lemma per field per update, and the registers seen through `readReg`. -/

namespace Sys2Proof.Machine

variable (s : State)

section advance
@[simp] theorem advance_v : (s.advance).v = s.v := rfl
@[simp] theorem advance_index : (s.advance).index = s.index := rfl
@[simp] theorem advance_pc : (s.advance).pc = s.pc + 2 := rfl
@[simp] theorem advance_sp : (s.advance).sp = s.sp := rfl
@[simp] theorem advance_stack : (s.advance).stack = s.stack := rfl
@[simp] theorem advance_dt : (s.advance).dt = s.dt := rfl
@[simp] theorem advance_st : (s.advance).st = s.st := rfl
@[simp] theorem advance_mem : (s.advance).mem = s.mem := rfl
@[simp] theorem advance_fb : (s.advance).fb = s.fb := rfl
@[simp] theorem advance_redraw : (s.advance).redraw = s.redraw := rfl
@[simp] theorem advance_keys : (s.advance).keys = s.keys := rfl
@[simp] theorem advance_fault : (s.advance).fault = s.fault := rfl
@[simp] theorem advance_draws : (s.advance).draws = s.draws := rfl
@[simp] theorem advance_readReg (z : RegIdx) : (s.advance).readReg z = s.readReg z := rfl
end advance

section jumpTo
variable (w : Word)
@[simp] theorem jumpTo_v : (s.jumpTo w).v = s.v := rfl
@[simp] theorem jumpTo_index : (s.jumpTo w).index = s.index := rfl
@[simp] theorem jumpTo_pc : (s.jumpTo w).pc = w := rfl
@[simp] theorem jumpTo_sp : (s.jumpTo w).sp = s.sp := rfl
@[simp] theorem jumpTo_stack : (s.jumpTo w).stack = s.stack := rfl
@[simp] theorem jumpTo_dt : (s.jumpTo w).dt = s.dt := rfl
@[simp] theorem jumpTo_st : (s.jumpTo w).st = s.st := rfl
@[simp] theorem jumpTo_mem : (s.jumpTo w).mem = s.mem := rfl
@[simp] theorem jumpTo_fb : (s.jumpTo w).fb = s.fb := rfl
@[simp] theorem jumpTo_redraw : (s.jumpTo w).redraw = s.redraw := rfl
@[simp] theorem jumpTo_keys : (s.jumpTo w).keys = s.keys := rfl
@[simp] theorem jumpTo_fault : (s.jumpTo w).fault = s.fault := rfl
@[simp] theorem jumpTo_draws : (s.jumpTo w).draws = s.draws := rfl
@[simp] theorem jumpTo_readReg (z : RegIdx) : (s.jumpTo w).readReg z = s.readReg z := rfl
end jumpTo

section setIndex
variable (w : Word)
@[simp] theorem setIndex_v : (s.setIndex w).v = s.v := rfl
@[simp] theorem setIndex_index : (s.setIndex w).index = w := rfl
@[simp] theorem setIndex_pc : (s.setIndex w).pc = s.pc := rfl
@[simp] theorem setIndex_sp : (s.setIndex w).sp = s.sp := rfl
@[simp] theorem setIndex_stack : (s.setIndex w).stack = s.stack := rfl
@[simp] theorem setIndex_dt : (s.setIndex w).dt = s.dt := rfl
@[simp] theorem setIndex_st : (s.setIndex w).st = s.st := rfl
@[simp] theorem setIndex_mem : (s.setIndex w).mem = s.mem := rfl
@[simp] theorem setIndex_fb : (s.setIndex w).fb = s.fb := rfl
@[simp] theorem setIndex_redraw : (s.setIndex w).redraw = s.redraw := rfl
@[simp] theorem setIndex_keys : (s.setIndex w).keys = s.keys := rfl
@[simp] theorem setIndex_fault : (s.setIndex w).fault = s.fault := rfl
@[simp] theorem setIndex_draws : (s.setIndex w).draws = s.draws := rfl
@[simp] theorem setIndex_readReg (z : RegIdx) : (s.setIndex w).readReg z = s.readReg z := rfl
end setIndex

section setDelayTimer
variable (b : Byte)
@[simp] theorem setDelayTimer_v : (s.setDelayTimer b).v = s.v := rfl
@[simp] theorem setDelayTimer_index : (s.setDelayTimer b).index = s.index := rfl
@[simp] theorem setDelayTimer_pc : (s.setDelayTimer b).pc = s.pc := rfl
@[simp] theorem setDelayTimer_sp : (s.setDelayTimer b).sp = s.sp := rfl
@[simp] theorem setDelayTimer_stack : (s.setDelayTimer b).stack = s.stack := rfl
@[simp] theorem setDelayTimer_dt : (s.setDelayTimer b).dt = b := rfl
@[simp] theorem setDelayTimer_st : (s.setDelayTimer b).st = s.st := rfl
@[simp] theorem setDelayTimer_mem : (s.setDelayTimer b).mem = s.mem := rfl
@[simp] theorem setDelayTimer_fb : (s.setDelayTimer b).fb = s.fb := rfl
@[simp] theorem setDelayTimer_redraw : (s.setDelayTimer b).redraw = s.redraw := rfl
@[simp] theorem setDelayTimer_keys : (s.setDelayTimer b).keys = s.keys := rfl
@[simp] theorem setDelayTimer_fault : (s.setDelayTimer b).fault = s.fault := rfl
@[simp] theorem setDelayTimer_draws : (s.setDelayTimer b).draws = s.draws := rfl
@[simp] theorem setDelayTimer_readReg (z : RegIdx) : (s.setDelayTimer b).readReg z = s.readReg z := rfl
end setDelayTimer

section setSoundTimer
variable (b : Byte)
@[simp] theorem setSoundTimer_v : (s.setSoundTimer b).v = s.v := rfl
@[simp] theorem setSoundTimer_index : (s.setSoundTimer b).index = s.index := rfl
@[simp] theorem setSoundTimer_pc : (s.setSoundTimer b).pc = s.pc := rfl
@[simp] theorem setSoundTimer_sp : (s.setSoundTimer b).sp = s.sp := rfl
@[simp] theorem setSoundTimer_stack : (s.setSoundTimer b).stack = s.stack := rfl
@[simp] theorem setSoundTimer_dt : (s.setSoundTimer b).dt = s.dt := rfl
@[simp] theorem setSoundTimer_st : (s.setSoundTimer b).st = b := rfl
@[simp] theorem setSoundTimer_mem : (s.setSoundTimer b).mem = s.mem := rfl
@[simp] theorem setSoundTimer_fb : (s.setSoundTimer b).fb = s.fb := rfl
@[simp] theorem setSoundTimer_redraw : (s.setSoundTimer b).redraw = s.redraw := rfl
@[simp] theorem setSoundTimer_keys : (s.setSoundTimer b).keys = s.keys := rfl
@[simp] theorem setSoundTimer_fault : (s.setSoundTimer b).fault = s.fault := rfl
@[simp] theorem setSoundTimer_draws : (s.setSoundTimer b).draws = s.draws := rfl
@[simp] theorem setSoundTimer_readReg (z : RegIdx) : (s.setSoundTimer b).readReg z = s.readReg z := rfl
end setSoundTimer

section writeReg
variable (x : RegIdx) (b : Byte)
@[simp] theorem writeReg_v : (s.writeReg x b).v = s.v.set x.toNat b x.isLt := rfl
@[simp] theorem writeReg_index : (s.writeReg x b).index = s.index := rfl
@[simp] theorem writeReg_pc : (s.writeReg x b).pc = s.pc := rfl
@[simp] theorem writeReg_sp : (s.writeReg x b).sp = s.sp := rfl
@[simp] theorem writeReg_stack : (s.writeReg x b).stack = s.stack := rfl
@[simp] theorem writeReg_dt : (s.writeReg x b).dt = s.dt := rfl
@[simp] theorem writeReg_st : (s.writeReg x b).st = s.st := rfl
@[simp] theorem writeReg_mem : (s.writeReg x b).mem = s.mem := rfl
@[simp] theorem writeReg_fb : (s.writeReg x b).fb = s.fb := rfl
@[simp] theorem writeReg_redraw : (s.writeReg x b).redraw = s.redraw := rfl
@[simp] theorem writeReg_keys : (s.writeReg x b).keys = s.keys := rfl
@[simp] theorem writeReg_fault : (s.writeReg x b).fault = s.fault := rfl
@[simp] theorem writeReg_draws : (s.writeReg x b).draws = s.draws := rfl
end writeReg

section countDraw
@[simp] theorem countDraw_v : s.countDraw.v = s.v := rfl
@[simp] theorem countDraw_index : s.countDraw.index = s.index := rfl
@[simp] theorem countDraw_pc : s.countDraw.pc = s.pc := rfl
@[simp] theorem countDraw_sp : s.countDraw.sp = s.sp := rfl
@[simp] theorem countDraw_stack : s.countDraw.stack = s.stack := rfl
@[simp] theorem countDraw_dt : s.countDraw.dt = s.dt := rfl
@[simp] theorem countDraw_st : s.countDraw.st = s.st := rfl
@[simp] theorem countDraw_mem : s.countDraw.mem = s.mem := rfl
@[simp] theorem countDraw_fb : s.countDraw.fb = s.fb := rfl
@[simp] theorem countDraw_redraw : s.countDraw.redraw = s.redraw := rfl
@[simp] theorem countDraw_keys : s.countDraw.keys = s.keys := rfl
@[simp] theorem countDraw_fault : s.countDraw.fault = s.fault := rfl
@[simp] theorem countDraw_draws : s.countDraw.draws = s.draws + 1 := rfl
@[simp] theorem countDraw_readReg (z : RegIdx) : s.countDraw.readReg z = s.readReg z := rfl
end countDraw

section writeMasked
variable (x : RegIdx) (r kk : Byte)
@[simp] theorem writeMasked_v : (s.writeMasked x r kk).v = s.v.set x.toNat (r &&& kk) x.isLt := rfl
@[simp] theorem writeMasked_index : (s.writeMasked x r kk).index = s.index := rfl
@[simp] theorem writeMasked_pc : (s.writeMasked x r kk).pc = s.pc := rfl
@[simp] theorem writeMasked_sp : (s.writeMasked x r kk).sp = s.sp := rfl
@[simp] theorem writeMasked_stack : (s.writeMasked x r kk).stack = s.stack := rfl
@[simp] theorem writeMasked_dt : (s.writeMasked x r kk).dt = s.dt := rfl
@[simp] theorem writeMasked_st : (s.writeMasked x r kk).st = s.st := rfl
@[simp] theorem writeMasked_mem : (s.writeMasked x r kk).mem = s.mem := rfl
@[simp] theorem writeMasked_fb : (s.writeMasked x r kk).fb = s.fb := rfl
@[simp] theorem writeMasked_redraw : (s.writeMasked x r kk).redraw = s.redraw := rfl
@[simp] theorem writeMasked_keys : (s.writeMasked x r kk).keys = s.keys := rfl
@[simp] theorem writeMasked_fault : (s.writeMasked x r kk).fault = s.fault := rfl
@[simp] theorem writeMasked_draws : (s.writeMasked x r kk).draws = s.draws := rfl
end writeMasked

section drawFlag
@[simp] theorem drawFlag_v : (s.drawFlag).v = s.v.set 15 (Config.freeByte s.draws) := rfl
@[simp] theorem drawFlag_index : (s.drawFlag).index = s.index := rfl
@[simp] theorem drawFlag_pc : (s.drawFlag).pc = s.pc := rfl
@[simp] theorem drawFlag_sp : (s.drawFlag).sp = s.sp := rfl
@[simp] theorem drawFlag_stack : (s.drawFlag).stack = s.stack := rfl
@[simp] theorem drawFlag_dt : (s.drawFlag).dt = s.dt := rfl
@[simp] theorem drawFlag_st : (s.drawFlag).st = s.st := rfl
@[simp] theorem drawFlag_mem : (s.drawFlag).mem = s.mem := rfl
@[simp] theorem drawFlag_fb : (s.drawFlag).fb = s.fb := rfl
@[simp] theorem drawFlag_redraw : (s.drawFlag).redraw = s.redraw := rfl
@[simp] theorem drawFlag_keys : (s.drawFlag).keys = s.keys := rfl
@[simp] theorem drawFlag_fault : (s.drawFlag).fault = s.fault := rfl
@[simp] theorem drawFlag_draws : (s.drawFlag).draws = s.draws + 1 := rfl
end drawFlag

section raise
variable (c : Cause) (w : Option Word)
@[simp] theorem raise_v : (s.raise c w).v = s.v := rfl
@[simp] theorem raise_index : (s.raise c w).index = s.index := rfl
@[simp] theorem raise_pc : (s.raise c w).pc = s.pc := rfl
@[simp] theorem raise_sp : (s.raise c w).sp = s.sp := rfl
@[simp] theorem raise_stack : (s.raise c w).stack = s.stack := rfl
@[simp] theorem raise_dt : (s.raise c w).dt = s.dt := rfl
@[simp] theorem raise_st : (s.raise c w).st = s.st := rfl
@[simp] theorem raise_mem : (s.raise c w).mem = s.mem := rfl
@[simp] theorem raise_fb : (s.raise c w).fb = s.fb := rfl
@[simp] theorem raise_redraw : (s.raise c w).redraw = s.redraw := rfl
@[simp] theorem raise_keys : (s.raise c w).keys = s.keys := rfl
@[simp] theorem raise_fault : (s.raise c w).fault = some ⟨c, w, s.pc⟩ := rfl
@[simp] theorem raise_draws : (s.raise c w).draws = s.draws := rfl
@[simp] theorem raise_readReg (z : RegIdx) : (s.raise c w).readReg z = s.readReg z := rfl
end raise

section decay
@[simp] theorem decay_v : (s.decay).v = s.v := rfl
@[simp] theorem decay_index : (s.decay).index = s.index := rfl
@[simp] theorem decay_pc : (s.decay).pc = s.pc := rfl
@[simp] theorem decay_sp : (s.decay).sp = s.sp := rfl
@[simp] theorem decay_stack : (s.decay).stack = s.stack := rfl
@[simp] theorem decay_dt : (s.decay).dt = decayed s.dt := rfl
@[simp] theorem decay_st : (s.decay).st = decayed s.st := rfl
@[simp] theorem decay_mem : (s.decay).mem = s.mem := rfl
@[simp] theorem decay_fb : (s.decay).fb = s.fb := rfl
@[simp] theorem decay_redraw : (s.decay).redraw = s.redraw := rfl
@[simp] theorem decay_keys : (s.decay).keys = s.keys := rfl
@[simp] theorem decay_fault : (s.decay).fault = s.fault := rfl
@[simp] theorem decay_draws : (s.decay).draws = s.draws := rfl
@[simp] theorem decay_readReg (z : RegIdx) : (s.decay).readReg z = s.readReg z := rfl
end decay

section writePlot
variable (p : Plot)
@[simp] theorem writePlot_v : (s.writePlot p).v = s.v.set 15 (flagByte p.collision) := rfl
@[simp] theorem writePlot_index : (s.writePlot p).index = s.index := rfl
@[simp] theorem writePlot_pc : (s.writePlot p).pc = s.pc := rfl
@[simp] theorem writePlot_sp : (s.writePlot p).sp = s.sp := rfl
@[simp] theorem writePlot_stack : (s.writePlot p).stack = s.stack := rfl
@[simp] theorem writePlot_dt : (s.writePlot p).dt = s.dt := rfl
@[simp] theorem writePlot_st : (s.writePlot p).st = s.st := rfl
@[simp] theorem writePlot_mem : (s.writePlot p).mem = s.mem := rfl
@[simp] theorem writePlot_fb : (s.writePlot p).fb = p.fb := rfl
@[simp] theorem writePlot_redraw : (s.writePlot p).redraw = (s.redraw || p.changed) := rfl
@[simp] theorem writePlot_keys : (s.writePlot p).keys = s.keys := rfl
@[simp] theorem writePlot_fault : (s.writePlot p).fault = s.fault := rfl
@[simp] theorem writePlot_draws : (s.writePlot p).draws = s.draws := rfl
end writePlot

section hostKeys
variable (ks : Vector Bool 16)
@[simp] theorem hostKeys_v : (s.hostKeys ks).v = s.v := rfl
@[simp] theorem hostKeys_index : (s.hostKeys ks).index = s.index := rfl
@[simp] theorem hostKeys_pc : (s.hostKeys ks).pc = s.pc := rfl
@[simp] theorem hostKeys_sp : (s.hostKeys ks).sp = s.sp := rfl
@[simp] theorem hostKeys_stack : (s.hostKeys ks).stack = s.stack := rfl
@[simp] theorem hostKeys_dt : (s.hostKeys ks).dt = s.dt := rfl
@[simp] theorem hostKeys_st : (s.hostKeys ks).st = s.st := rfl
@[simp] theorem hostKeys_mem : (s.hostKeys ks).mem = s.mem := rfl
@[simp] theorem hostKeys_fb : (s.hostKeys ks).fb = s.fb := rfl
@[simp] theorem hostKeys_redraw : (s.hostKeys ks).redraw = s.redraw := rfl
@[simp] theorem hostKeys_keys : (s.hostKeys ks).keys = ks := rfl
@[simp] theorem hostKeys_fault : (s.hostKeys ks).fault = s.fault := rfl
@[simp] theorem hostKeys_draws : (s.hostKeys ks).draws = s.draws := rfl
@[simp] theorem hostKeys_readReg (z : RegIdx) : (s.hostKeys ks).readReg z = s.readReg z := rfl
end hostKeys

section hostKey
variable (k : Fin 16) (b : Bool)
@[simp] theorem hostKey_v : (s.hostKey k b).v = s.v := rfl
@[simp] theorem hostKey_index : (s.hostKey k b).index = s.index := rfl
@[simp] theorem hostKey_pc : (s.hostKey k b).pc = s.pc := rfl
@[simp] theorem hostKey_sp : (s.hostKey k b).sp = s.sp := rfl
@[simp] theorem hostKey_stack : (s.hostKey k b).stack = s.stack := rfl
@[simp] theorem hostKey_dt : (s.hostKey k b).dt = s.dt := rfl
@[simp] theorem hostKey_st : (s.hostKey k b).st = s.st := rfl
@[simp] theorem hostKey_mem : (s.hostKey k b).mem = s.mem := rfl
@[simp] theorem hostKey_fb : (s.hostKey k b).fb = s.fb := rfl
@[simp] theorem hostKey_redraw : (s.hostKey k b).redraw = s.redraw := rfl
@[simp] theorem hostKey_keys : (s.hostKey k b).keys = s.keys.set k b := rfl
@[simp] theorem hostKey_fault : (s.hostKey k b).fault = s.fault := rfl
@[simp] theorem hostKey_draws : (s.hostKey k b).draws = s.draws := rfl
@[simp] theorem hostKey_readReg (z : RegIdx) : (s.hostKey k b).readReg z = s.readReg z := rfl
end hostKey

section hostFrameAck
@[simp] theorem hostFrameAck_v : (s.hostFrameAck).v = s.v := rfl
@[simp] theorem hostFrameAck_index : (s.hostFrameAck).index = s.index := rfl
@[simp] theorem hostFrameAck_pc : (s.hostFrameAck).pc = s.pc := rfl
@[simp] theorem hostFrameAck_sp : (s.hostFrameAck).sp = s.sp := rfl
@[simp] theorem hostFrameAck_stack : (s.hostFrameAck).stack = s.stack := rfl
@[simp] theorem hostFrameAck_dt : (s.hostFrameAck).dt = s.dt := rfl
@[simp] theorem hostFrameAck_st : (s.hostFrameAck).st = s.st := rfl
@[simp] theorem hostFrameAck_mem : (s.hostFrameAck).mem = s.mem := rfl
@[simp] theorem hostFrameAck_fb : (s.hostFrameAck).fb = s.fb := rfl
@[simp] theorem hostFrameAck_redraw : (s.hostFrameAck).redraw = false := rfl
@[simp] theorem hostFrameAck_keys : (s.hostFrameAck).keys = s.keys := rfl
@[simp] theorem hostFrameAck_fault : (s.hostFrameAck).fault = s.fault := rfl
@[simp] theorem hostFrameAck_draws : (s.hostFrameAck).draws = s.draws := rfl
@[simp] theorem hostFrameAck_readReg (z : RegIdx) : (s.hostFrameAck).readReg z = s.readReg z := rfl
end hostFrameAck

section skipIf
variable (c : Bool)
@[simp] theorem skipIf_v : (s.skipIf c).v = s.v := by cases c <;> rfl
@[simp] theorem skipIf_index : (s.skipIf c).index = s.index := by cases c <;> rfl
@[simp] theorem skipIf_pc : (s.skipIf c).pc = if c then s.pc + 2 else s.pc := by cases c <;> rfl
@[simp] theorem skipIf_sp : (s.skipIf c).sp = s.sp := by cases c <;> rfl
@[simp] theorem skipIf_stack : (s.skipIf c).stack = s.stack := by cases c <;> rfl
@[simp] theorem skipIf_dt : (s.skipIf c).dt = s.dt := by cases c <;> rfl
@[simp] theorem skipIf_st : (s.skipIf c).st = s.st := by cases c <;> rfl
@[simp] theorem skipIf_mem : (s.skipIf c).mem = s.mem := by cases c <;> rfl
@[simp] theorem skipIf_fb : (s.skipIf c).fb = s.fb := by cases c <;> rfl
@[simp] theorem skipIf_redraw : (s.skipIf c).redraw = s.redraw := by cases c <;> rfl
@[simp] theorem skipIf_keys : (s.skipIf c).keys = s.keys := by cases c <;> rfl
@[simp] theorem skipIf_fault : (s.skipIf c).fault = s.fault := by cases c <;> rfl
@[simp] theorem skipIf_draws : (s.skipIf c).draws = s.draws := by cases c <;> rfl
@[simp] theorem skipIf_readReg (z : RegIdx) : (s.skipIf c).readReg z = s.readReg z := by cases c <;> rfl
end skipIf

/-- A register reads the value last written to it, and a write leaves every other register alone (R11). -/
@[simp] theorem writeReg_readReg (x z : RegIdx) (b : Byte) :
    (s.writeReg x b).readReg z = if z = x then b else s.readReg z := by
  unfold State.readReg State.writeReg
  simp only [Vector.getElem_set, BitVec.toNat_inj, eq_comm]

/-- RANDOM-AND-MASK's write (R121). -/
@[simp] theorem writeMasked_readReg (x z : RegIdx) (r kk : Byte) :
    (s.writeMasked x r kk).readReg z = if z = x then r &&& kk else s.readReg z := writeReg_readReg s x z _

/-- The free byte lands in `V[15]` (R101). -/
@[simp] theorem drawFlag_readReg (z : RegIdx) :
    s.drawFlag.readReg z = if z = vF then Config.freeByte s.draws else s.readReg z :=
  writeReg_readReg s vF z _

/-- A plot writes its collision to `V[15]` (R127). -/
@[simp] theorem writePlot_readReg (p : Plot) (z : RegIdx) :
    (s.writePlot p).readReg z = if z = vF then flagByte p.collision else s.readReg z :=
  writeReg_readReg s vF z _

/-- Result and flag, or the one free byte (R101, R108 to R112). -/
@[simp] theorem writeResultFlag_readReg (x z : RegIdx) (r f : Byte) :
    (s.writeResultFlag x r f).readReg z =
      if x = vF then (if z = vF then Config.freeByte s.draws else s.readReg z)
      else if z = vF then f else if z = x then r else s.readReg z := by
  unfold State.writeResultFlag
  split <;> simp

/-- A write of the result and the flag when `x` is not 15: the two writes (R101). -/
theorem writeResultFlag_of_ne {x : RegIdx} (hx : x ≠ vF) (r f : Byte) :
    s.writeResultFlag x r f = (s.writeReg x r).writeReg vF f := if_neg hx

/-- A write of the result and the flag when `x` is 15: the free byte (R101). -/
theorem writeResultFlag_of_eq (r f : Byte) : s.writeResultFlag vF r f = s.drawFlag := if_pos rfl

end Sys2Proof.Machine
end

