-- ==== Sys2Proof/Laws/Words.lean ====
section
/-! SUPPORT. The fields of a word put together from its fields (30_encoding.md rules R56, R57), and the two bytes of a
word (20_memory.md rule R40). -/

namespace Sys2Proof

section bits
variable (p x y n : Nibble) (r : Addr) (k lo : Byte) (i : Nat)

/-- The bits of `op nnn`. -/
theorem getLsbD_NNN : BitVec.getLsbD (w := 16) (p ++ r) i = if i < 12 then r.getLsbD i else p.getLsbD (i - 12) :=
  BitVec.getLsbD_append

/-- The bits of two bytes. -/
theorem getLsbD_bytes : BitVec.getLsbD (w := 16) (k ++ lo) i = if i < 8 then lo.getLsbD i else k.getLsbD (i - 8) :=
  BitVec.getLsbD_append

/-- The bits of `op x kk`. -/
theorem getLsbD_XKK : BitVec.getLsbD (w := 16) (p ++ x ++ k) i =
    if i < 8 then k.getLsbD i else if i - 8 < 4 then x.getLsbD (i - 8) else p.getLsbD (i - 8 - 4) :=
  BitVec.getLsbD_append.trans (by rw [BitVec.getLsbD_append])

/-- The bits of `op x y n`. -/
theorem getLsbD_XYN : BitVec.getLsbD (w := 16) (p ++ x ++ y ++ n) i =
    if i < 4 then n.getLsbD i else if i - 4 < 4 then y.getLsbD (i - 4)
    else if i - 4 - 4 < 4 then x.getLsbD (i - 4 - 4) else p.getLsbD (i - 4 - 4 - 4) :=
  BitVec.getLsbD_append.trans (by rw [BitVec.getLsbD_append, BitVec.getLsbD_append])

end bits

/-- Equality of bit vectors of width `w`, with the bits of a slice in hand. -/
theorem eq_of_slice_bits {w start len : Nat} {a : BitVec w} {b : BitVec len}
    (h : ∀ i, i < len → a.getLsbD (start + i) = b.getLsbD i) : a.extractLsb' start len = b :=
  BitVec.eq_of_getLsbD_eq fun i hi => by simp only [BitVec.getLsbD_extractLsb', hi, decide_true, Bool.true_and, h i hi]

@[simp] theorem opField_NNN (p : Nibble) (r : Addr) : opField (p ++ r) = p :=
  eq_of_slice_bits fun i hi => by rw [getLsbD_NNN, if_neg (by omega)]; congr 1; omega

@[simp] theorem nnnField_NNN (p : Nibble) (r : Addr) : nnnField (p ++ r) = r :=
  eq_of_slice_bits fun i hi => by rw [getLsbD_NNN, if_pos (by omega)]; congr 1; omega

@[simp] theorem opField_XKK (p x : Nibble) (k : Byte) : opField (p ++ x ++ k) = p :=
  eq_of_slice_bits fun i hi => by rw [getLsbD_XKK, if_neg (by omega), if_neg (by omega)]; congr 1; omega

@[simp] theorem xField_XKK (p x : Nibble) (k : Byte) : xField (p ++ x ++ k) = x :=
  eq_of_slice_bits fun i hi => by rw [getLsbD_XKK, if_neg (by omega), if_pos (by omega)]; congr 1; omega

@[simp] theorem kkField_XKK (p x : Nibble) (k : Byte) : kkField (p ++ x ++ k) = k :=
  eq_of_slice_bits fun i hi => by rw [getLsbD_XKK, if_pos (by omega)]; congr 1; omega

@[simp] theorem opField_XYN (p x y n : Nibble) : opField (p ++ x ++ y ++ n) = p :=
  eq_of_slice_bits fun i hi => by
    rw [getLsbD_XYN, if_neg (by omega), if_neg (by omega), if_neg (by omega)]; congr 1; omega

@[simp] theorem xField_XYN (p x y n : Nibble) : xField (p ++ x ++ y ++ n) = x :=
  eq_of_slice_bits fun i hi => by
    rw [getLsbD_XYN, if_neg (by omega), if_neg (by omega), if_pos (by omega)]; congr 1; omega

@[simp] theorem yField_XYN (p x y n : Nibble) : yField (p ++ x ++ y ++ n) = y :=
  eq_of_slice_bits fun i hi => by rw [getLsbD_XYN, if_neg (by omega), if_pos (by omega)]; congr 1; omega

@[simp] theorem nField_XYN (p x y n : Nibble) : nField (p ++ x ++ y ++ n) = n :=
  eq_of_slice_bits fun i hi => by rw [getLsbD_XYN, if_pos (by omega)]; congr 1; omega

/-- A word is its family nibble and its `nnn` (R56). -/
theorem append_op_nnn (w : Word) : opField w ++ nnnField w = w := by
  refine BitVec.eq_of_getLsbD_eq fun i hi => ?_
  rw [getLsbD_NNN, opField, nnnField]
  simp only [BitVec.getLsbD_extractLsb']
  split
  · simp_all
  · rw [show 12 + (i - 12) = i by omega]; simp; omega

/-- A word is its family nibble, `x` and `kk` (R56). -/
theorem append_op_x_kk (w : Word) : opField w ++ xField w ++ kkField w = w := by
  refine BitVec.eq_of_getLsbD_eq fun i hi => ?_
  rw [getLsbD_XKK, opField, xField, kkField]
  simp only [BitVec.getLsbD_extractLsb']
  split
  · simp_all
  · split
    · rw [show 8 + (i - 8) = i by omega]; simp; omega
    · rw [show 12 + (i - 8 - 4) = i by omega]; simp; omega

/-- A word is its four nibbles (R56). -/
theorem append_op_x_y_n (w : Word) : opField w ++ xField w ++ yField w ++ nField w = w := by
  refine BitVec.eq_of_getLsbD_eq fun i hi => ?_
  rw [getLsbD_XYN, opField, xField, yField, nField]
  simp only [BitVec.getLsbD_extractLsb']
  split
  · simp_all
  · split
    · rw [show 4 + (i - 4) = i by omega]; simp; omega
    · split
      · rw [show 8 + (i - 4 - 4) = i by omega]; simp; omega
      · rw [show 12 + (i - 4 - 4 - 4) = i by omega]; simp; omega

/-- A word is its two bytes, high byte first (R40). -/
@[simp] theorem wordOfBytes_hi_lo (w : Word) : wordOfBytes (hiByte w) (loByte w) = w := by
  refine BitVec.eq_of_getLsbD_eq fun i hi => ?_
  rw [wordOfBytes, getLsbD_bytes, hiByte, loByte]
  simp only [BitVec.getLsbD_extractLsb']
  split
  · simp_all
  · rw [show 8 + (i - 8) = i by omega]; simp; omega

/-- Two bytes as a number: `MEM[a] × 256 + MEM[a + 1]` (R39). -/
theorem wordOfBytes_toNat (hi lo : Byte) : (wordOfBytes hi lo).toNat = hi.toNat * 256 + lo.toNat := by
  unfold wordOfBytes
  have := lo.isLt
  rw [BitVec.toNat_append, ← Nat.shiftLeft_add_eq_or_of_lt this, Nat.shiftLeft_eq]

/-- A word outside family 0 decodes by its family: the two constants are in family 0 (R59). -/
theorem decodeWord_of_family {w : Word} (h : opField w ≠ 0x0#4) : decodeWord w = decodeFamily w := by
  rw [decodeWord, if_neg (by rintro rfl; exact h rfl), if_neg (by rintro rfl; exact h rfl)]

/-- A `0nnn` word that is neither constant is SYS (R59, R64). -/
theorem decodeWord_sys {nnn : Addr} (h : nnn ≠ 0x0E0) (h' : nnn ≠ 0x0EE) :
    decodeWord (0x0#4 ++ nnn) = .ok (.sys nnn) := by
  have e0 : (0x0#4 ++ nnn : Word) ≠ 0x00E0#16 := fun e => h ((nnnField_NNN 0x0#4 nnn).symm.trans (congrArg nnnField e))
  have e1 : (0x0#4 ++ nnn : Word) ≠ 0x00EE#16 := fun e => h' ((nnnField_NNN 0x0#4 nnn).symm.trans (congrArg nnnField e))
  rw [decodeWord, if_neg e0, if_neg e1, decodeFamily, opField_NNN, nnnField_NNN]; rfl

end Sys2Proof
end

