-- ==== Sys2Proof/Laws/Ops.lean ====
section
/-! SUPPORT. One spec lemma per shared operation: everything it can do, so that no later proof unfolds it. -/

namespace Sys2Proof.Machine

variable {s t u : State} {w : Word}

/-! ### Running an effect -/

/-- An instruction that cannot fault answers its effect on the advanced state. -/
theorem runs_eq (effect : State → State) : s.runs effect = .next (effect s.advance) := rfl

/-- `mayRaise` when the effect succeeds. -/
theorem mayRaise_of_ok {effect : State → Except Cause State} (h : effect s.advance = .ok t) :
    s.mayRaise w effect = .next t := by
  rw [State.mayRaise, h]

/-- `mayRaise` when the effect raises: the state of the step's beginning with the latch set (R213). -/
theorem mayRaise_of_error {effect : State → Except Cause State} {c : Cause} (h : effect s.advance = .error c) :
    s.mayRaise w effect = .next (s.raise c (some w)) := by
  rw [State.mayRaise, h]

/-- Everything `mayRaise` can do. -/
theorem mayRaise_cases {effect : State → Except Cause State} (h : s.mayRaise w effect = .next t) :
    effect s.advance = .ok t ∨ ∃ c, effect s.advance = .error c ∧ t = s.raise c (some w) := by
  unfold State.mayRaise at h
  split at h
  · rename_i u hu; cases h; exact .inl hu
  · rename_i c hc; cases h; exact .inr ⟨c, hc, rfl⟩

/-- `mayRaise` always answers a next state. -/
theorem mayRaise_next (effect : State → Except Cause State) : ∃ t, s.mayRaise w effect = .next t := by
  unfold State.mayRaise
  split <;> exact ⟨_, rfl⟩

/-! ### Stack, keys, digits -/

/-- Push with a free slot (R81). -/
theorem push_ok (h : s.sp.toNat < 16) :
    s.push = .ok { s with stack := s.stack.set s.sp.toNat s.pc h, sp := s.sp + 1 } := dif_pos h

/-- Push with none (R81). -/
theorem push_error (h : 16 ≤ s.sp.toNat) : s.push = .error .stackOverflow := dif_neg (by omega)

/-- A key operand in range (R140). -/
theorem keyOperand_ok {b : Byte} (h : b.toNat < 16) : keyOperand b = .ok ⟨b.toNat, h⟩ := dif_pos h

/-- A key operand out of range (R140). -/
theorem keyOperand_error {b : Byte} (h : 16 ≤ b.toNat) : keyOperand b = .error .keyIndexOutOfRange :=
  dif_neg (by omega)

/-- A digit in range (R164). -/
theorem glyphOperand_ok {b : Byte} (h : b.toNat < 16) :
    glyphOperand b = .ok (BitVec.ofNat 16 (Config.fontBase + 5 * b.toNat)) := if_pos h

/-- A digit out of range (R164). -/
theorem glyphOperand_error {b : Byte} (h : 16 ≤ b.toNat) : glyphOperand b = .error .fontDigitOutOfRange :=
  if_neg (by omega)

/-- The least pressed key, found (R143). -/
theorem leastKey_eq_some {k : Fin 16} (hk : s.keys[k] = true) (hlt : ∀ j : Fin 16, j < k → s.keys[j] = false) :
    s.leastKey = some k := by
  rw [State.leastKey, List.find?_eq_some_iff_getElem]
  refine ⟨hk, k.val, by simp, by simp, fun j hj => ?_⟩
  simpa using hlt ⟨j, by omega⟩ hj

/-- No key is pressed (R143). -/
theorem leastKey_eq_none (h : ∀ k : Fin 16, s.keys[k] = false) : s.leastKey = none := by
  rw [State.leastKey, List.find?_eq_none]
  intro k _
  simp [h k]

/-! ### Memory transfer -/

/-- Reading bytes in range (R38). -/
theorem readBytes_ok {a n : Nat} (h : n = 0 ∨ a + n ≤ 4096) :
    s.readBytes a n = .ok ((List.range n).map fun k => s.mem.read (a + k)) := if_neg (by omega)

/-- Reading bytes out of range (R38). -/
theorem readBytes_error {a n : Nat} (hn : 0 < n) (h : 4095 < a + n - 1) :
    s.readBytes a n = .error .memoryOutOfRange := if_pos ⟨hn, h⟩

/-- Everything a checked read can do. -/
theorem readBytes_cases (s : State) (a n : Nat) :
    (s.readBytes a n = .error .memoryOutOfRange ∧ 0 < n ∧ 4095 < a + n - 1) ∨
    (s.readBytes a n = .ok ((List.range n).map fun k => s.mem.read (a + k)) ∧ (n = 0 ∨ a + n ≤ 4096)) := by
  by_cases h : n > 0 ∧ a + n - 1 > 4095
  · exact .inl ⟨if_pos h, h⟩
  · exact .inr ⟨if_neg h, by omega⟩

/-- Writing bytes in range (R38). -/
theorem writeBytes_ok {a : Nat} {bs : List Byte} (h : bs.length = 0 ∨ a + bs.length ≤ 4096) :
    s.writeBytes a bs = .ok { s with mem := s.mem.writeAll a bs } := if_neg (by omega)

/-- Writing bytes out of range (R38). -/
theorem writeBytes_error {a : Nat} {bs : List Byte} (hn : 0 < bs.length) (h : 4095 < a + bs.length - 1) :
    s.writeBytes a bs = .error .memoryOutOfRange := if_pos ⟨hn, h⟩

/-- Everything a checked write can do. -/
theorem writeBytes_cases (s : State) (a : Nat) (bs : List Byte) :
    (s.writeBytes a bs = .error .memoryOutOfRange ∧ 0 < bs.length ∧ 4095 < a + bs.length - 1) ∨
    (s.writeBytes a bs = .ok { s with mem := s.mem.writeAll a bs } ∧ (bs.length = 0 ∨ a + bs.length ≤ 4096)) := by
  by_cases h : bs.length > 0 ∧ a + bs.length - 1 > 4095
  · exact .inl ⟨if_pos h, h⟩
  · exact .inr ⟨if_neg h, by omega⟩

/-- The list a bulk store writes has `x + 1` bytes (R166). -/
@[simp] theorem readRegsUpTo_length (x : RegIdx) : (s.readRegsUpTo x).length = x.toNat + 1 := by
  simp [State.readRegsUpTo]

/-- The list a BCD store writes has three bytes (R165). -/
@[simp] theorem bcdDigits_length (b : Byte) : (bcdDigits b).length = 3 := rfl

/-- Writing registers upward changes nothing but the registers (R167). -/
theorem writeRegsFrom_eq (k : Nat) (bs : List Byte) (s : State) :
    State.writeRegsFrom k bs s = { s with v := (State.writeRegsFrom k bs s).v } := by
  induction bs generalizing k s with
  | nil => rfl
  | cons b bs ih => rw [State.writeRegsFrom, ih]; rfl

/-- Writing registers upward: those in range take their byte, the others stay (R167). -/
theorem writeRegsFrom_readReg (bs : List Byte) (k : Nat) (hk : k + bs.length ≤ 16) (s : State) (z : RegIdx) :
    (State.writeRegsFrom k bs s).readReg z =
      if k ≤ z.toNat then bs.getD (z.toNat - k) (s.readReg z) else s.readReg z := by
  induction bs generalizing k s with
  | nil => simp [State.writeRegsFrom]
  | cons b bs ih =>
    rw [List.length_cons] at hk
    rw [State.writeRegsFrom, ih (k + 1) (by omega), writeReg_readReg]
    have hz : z = BitVec.ofNat 4 k ↔ z.toNat = k := by
      rw [← BitVec.toNat_inj, BitVec.toNat_ofNat, Nat.mod_eq_of_lt (by omega)]
    by_cases h1 : z.toNat = k
    · simp [hz, h1]
    · by_cases h2 : k ≤ z.toNat
      · rw [if_pos (by omega), if_pos h2, if_neg (by rwa [hz]), show z.toNat - k = z.toNat - (k + 1) + 1 by omega]
        simp
      · rw [if_neg (by omega), if_neg h2, if_neg (by rwa [hz])]

/-! ### Fetch, step -/

/-- A fetch in range (R39). -/
theorem fetch_eq_some (h : s.pc.toNat ≤ 4094) :
    s.fetch = some (wordOfBytes (s.mem.read s.pc.toNat) (s.mem.read (s.pc.toNat + 1))) := if_pos (by omega)

/-- A fetch out of range (R39). -/
theorem fetch_eq_none (h : 4095 ≤ s.pc.toNat) : s.fetch = none := if_neg (by omega)

/-- A fetched word comes from an address in range. -/
theorem pc_le_of_fetch (h : s.fetch = some w) : s.pc.toNat ≤ 4094 := by
  unfold State.fetch at h
  split at h
  · omega
  · cases h

/-- Everything fetch and decode can do. -/
theorem fetchInstr_cases (s : State) :
    (s.fetch = none ∧ s.fetchInstr = .error (.fetchOutOfRange, none)) ∨
    ∃ w, s.fetch = some w ∧
      ((∃ i, decodeWord w = .ok i ∧ s.fetchInstr = .ok i) ∨
       ∃ e, decodeWord w = .error e ∧ s.fetchInstr = .error (causeOfDecodeError e, some w)) := by
  unfold State.fetchInstr
  cases hf : s.fetch with
  | none => exact .inl ⟨rfl, rfl⟩
  | some w =>
    refine .inr ⟨w, rfl, ?_⟩
    cases hd : decodeWord w with
    | ok i => exact .inl ⟨i, rfl, by simp [hd]⟩
    | error e => exact .inr ⟨e, rfl, by simp [hd]⟩

/-- Everything the end of a step can do. -/
theorem finishStep_cases {a : Answer} (h : finishStep a = .next t) :
    ∃ u, a = .next u ∧ t = if u.fault = none then u.decay else u := by
  cases a with
  | next u => cases h; exact ⟨u, rfl, rfl⟩
  | fault r => cases h
  | refused r => cases h

/-- Everything a step that answers a next state can do (R180): latch a fetch or decode fault, or run the fetched
instruction and end the step. -/
theorem step_cases (h : step s = .next t) :
    s.fault = none ∧
    ((∃ c w, s.fetchInstr = .error (c, w) ∧ t = s.raise c w) ∨
     ∃ i u, s.fetchInstr = .ok i ∧ exec i s = .next u ∧ t = if u.fault = none then u.decay else u) := by
  unfold step at h
  split at h
  · cases h
  · rename_i hf
    refine ⟨hf, ?_⟩
    split at h
    · rename_i c w hi; cases h; exact .inl ⟨c, w, hi, rfl⟩
    · rename_i i hi
      obtain ⟨u, hu, ht⟩ := finishStep_cases h
      exact .inr ⟨i, u, hi, hu, ht⟩

end Sys2Proof.Machine
end

