-- ==== Sys2Proof/Laws/View.lean ====
section
/-! SUPPORT. What each update does to every numbered piece of state: the frame of each shared operation, said once. -/

namespace Sys2Proof.Machine

variable (s : State) (p : Part)

@[simp] theorem view_raise (c : Cause) (w : Option Word) : (s.raise c w).view p = s.view p := by cases p <;> rfl

theorem view_advance : s.advance.view p = if p = .pc then (s.pc + 2).toNat else s.view p := by
  cases p <;> simp [State.view]

theorem view_jumpTo (w : Word) : (s.jumpTo w).view p = if p = .pc then w.toNat else s.view p := by
  cases p <;> simp [State.view]

theorem view_skipIf (c : Bool) :
    (s.skipIf c).view p = if p = .pc then (if c then s.pc + 2 else s.pc).toNat else s.view p := by
  cases p <;> simp [State.view]

theorem view_setIndex (w : Word) : (s.setIndex w).view p = if p = .index then w.toNat else s.view p := by
  cases p <;> simp [State.view]

theorem view_setDelayTimer (b : Byte) : (s.setDelayTimer b).view p = if p = .dt then b.toNat else s.view p := by
  cases p <;> simp [State.view]

theorem view_setSoundTimer (b : Byte) : (s.setSoundTimer b).view p = if p = .st then b.toNat else s.view p := by
  cases p <;> simp [State.view]

theorem view_writeReg (x : RegIdx) (b : Byte) :
    (s.writeReg x b).view p = if p = .reg x then b.toNat else s.view p := by
  cases p <;> simp [State.view, apply_ite BitVec.toNat]

theorem view_countDraw : s.countDraw.view p = if p = .draws then s.draws + 1 else s.view p := by
  cases p <;> simp [State.view]

theorem view_writeMasked (x : RegIdx) (r kk : Byte) :
    (s.writeMasked x r kk).view p = if p = .reg x then (r &&& kk).toNat else s.view p := view_writeReg s p x _

theorem view_drawFlag :
    s.drawFlag.view p =
      if p = .reg vF then (Config.freeByte s.draws).toNat else if p = .draws then s.draws + 1 else s.view p := by
  cases p <;> simp [State.view, apply_ite BitVec.toNat]

/-- Replacing memory changes bytes only. -/
theorem view_setMem (m : Memory) :
    ({ s with mem := m } : State).view p =
      match p with
      | .byte a => if a ≤ 4095 then (m.read a).toNat else 0
      | q => s.view q := by
  cases p <;> rfl

/-- Writing registers upward changes those registers only (R167). -/
theorem view_writeRegsFrom (bs : List Byte) (k : Nat) (hk : k + bs.length ≤ 16) :
    (State.writeRegsFrom k bs s).view p =
      match p with
      | .reg z => if k ≤ z.toNat then (bs.getD (z.toNat - k) (s.readReg z)).toNat else s.view (.reg z)
      | q => s.view q := by
  cases p with
  | reg z => simp [State.view, writeRegsFrom_readReg bs k hk, apply_ite BitVec.toNat]
  | _ => rw [writeRegsFrom_eq]; rfl

/-- A byte of `MEM` seen as a number. -/
theorem view_byte {a : Nat} (h : a ≤ 4095) : s.view (.byte a) = (s.mem.read a).toNat := if_pos h

/-- A byte seen as a number is below 256. -/
theorem view_byte_lt (a : Nat) : s.view (.byte a) < 256 := by
  by_cases h : a ≤ 4095
  · rw [view_byte s h]; exact (s.mem.read a).isLt
  · simp [State.view, h]

/-- A boolean seen as a number. -/
theorem bit_eq_one {b : Bool} : bit b = 1 ↔ b = true := by cases b <;> decide

theorem bit_eq_zero {b : Bool} : bit b = 0 ↔ b = false := by cases b <;> decide

theorem bit_not (b : Bool) : bit (!b) = 1 - bit b := by cases b <;> rfl

/-- A frame is reflexive. -/
theorem Frame.refl (P : Part → Prop) : Frame P s s := ⟨rfl, fun _ _ => rfl⟩

/-- Frames compose. -/
theorem Frame.trans {P Q : Part → Prop} {a b c : State} (h : Frame P a b) (h' : Frame Q b c) :
    Frame (fun p => P p ∨ Q p) a c :=
  ⟨h'.1.trans h.1, fun p hp => (h'.2 p fun hq => hp (.inr hq)).trans (h.2 p fun hq => hp (.inl hq))⟩

/-- The sum `PC + 2` as a number (R181). -/
theorem pc_add_two_toNat : (s.pc + 2).toNat = (s.view .pc + 2) % 65536 := by
  simp [State.view, BitVec.toNat_add]

end Sys2Proof.Machine
end

