-- ==== Sys2Proof/Laws/Drawing.lean ====
section
/-! SUPPORT. What a plot does (44_drawing.md rule R127), for cells listed without repeats; and which cells a sprite
lists (R128, R130). -/

namespace Sys2Proof.Machine

/-- Toggling a cell flips it and leaves the others. -/
theorem cell_toggle (fb : Screen) (c d : Fin 64 × Fin 32) :
    Screen.cell (Screen.toggle fb c) d = if d = c then !Screen.cell fb c else Screen.cell fb d := by
  obtain ⟨cx, cy⟩ := c
  obtain ⟨dx, dy⟩ := d
  simp only [Screen.cell, Screen.toggle, Fin.getElem_fin, Vector.getElem_set, Prod.mk.injEq, Fin.ext_iff]
  by_cases hx : (cx : Nat) = dx
  · simp only [hx, ↓reduceIte, Vector.getElem_set, true_and]
    by_cases hy : (cy : Nat) = dy
    · simp [hy]
    · simp [hy, Ne.symm hy]
  · simp [hx, Ne.symm hx]

/-- A pixel's cell, after the rest of a plot: the screen part of R127's loop. -/
theorem plot_cell (cells : List (Fin 64 × Fin 32)) (hn : cells.Nodup) (p : Plot) (d : Fin 64 × Fin 32) :
    Screen.cell (cells.foldl Plot.pixel p).fb d = if d ∈ cells then !Screen.cell p.fb d else Screen.cell p.fb d := by
  induction cells generalizing p with
  | nil => simp
  | cons c cells ih =>
    rw [List.nodup_cons] at hn
    rw [List.foldl_cons, ih hn.2, Plot.pixel, cell_toggle]
    by_cases h : d = c
    · subst h; simp [hn.1]
    · simp [h]

/-- The collision flag after a plot: some listed cell was on. -/
theorem plot_collision (cells : List (Fin 64 × Fin 32)) (hn : cells.Nodup) (p : Plot) :
    (cells.foldl Plot.pixel p).collision = (p.collision || cells.any (Screen.cell p.fb)) := by
  induction cells generalizing p with
  | nil => simp
  | cons c cells ih =>
    rw [List.nodup_cons] at hn
    have : cells.any (Screen.cell (p.pixel c).fb) = cells.any (Screen.cell p.fb) := by
      rw [Bool.eq_iff_iff, List.any_eq_true, List.any_eq_true]
      refine exists_congr fun d => and_congr_right fun hd => ?_
      rw [Plot.pixel, cell_toggle, if_neg (by rintro rfl; exact hn.1 hd)]
    rw [List.foldl_cons, ih hn.2, this, Plot.pixel, List.any_cons, Bool.or_assoc]

/-- The changed flag after a plot: some cell is listed. -/
theorem plot_changed (cells : List (Fin 64 × Fin 32)) (p : Plot) :
    (cells.foldl Plot.pixel p).changed = (p.changed || !cells.isEmpty) := by
  induction cells generalizing p with
  | nil => simp
  | cons c cells ih => rw [List.foldl_cons, ih]; simp [Plot.pixel]

/-- Where a policy places a sprite pixel, before dropping what lies off the screen (R128). -/
def policyPlace (policy : Config.EdgePolicy) (cx cy : Nat) : Nat × Nat :=
  match policy with
  | .wrap => (cx % 64, cy % 32)
  | .reject | .clip => (cx, cy)

/-- A sprite pixel falls on a cell exactly when the policy places it there. -/
theorem spriteCell_eq_some {policy : Config.EdgePolicy} {cx cy : Nat} {d : Fin 64 × Fin 32} :
    spriteCell policy cx cy = some d ↔ policyPlace policy cx cy = (d.1.val, d.2.val) := by
  obtain ⟨dx, dy⟩ := d
  have := dx.isLt
  have := dy.isLt
  cases policy <;> simp only [spriteCell, policyPlace, Option.some.injEq, Prod.mk.injEq, Fin.ext_iff]
  all_goals
    split
    · simp [Fin.ext_iff]
    · simp; omega

/-- The cells one sprite row lists (R127). -/
theorem mem_litCellsOfRow {policy : Config.EdgePolicy} {ox cy : Nat} {row : Byte} {d : Fin 64 × Fin 32} :
    d ∈ litCellsOfRow policy ox cy row ↔
      ∃ c < 8, spriteBit row c = true ∧ policyPlace policy (ox + c) cy = (d.1.val, d.2.val) := by
  simp only [litCellsOfRow, List.mem_filterMap, List.mem_range]
  refine exists_congr fun c => and_congr_right fun _ => ?_
  split <;> simp_all [spriteCell_eq_some]

/-- The cells a sprite lists (R127). -/
theorem mem_litCells {policy : Config.EdgePolicy} {ox oy : Nat} {rows : List Byte} {d : Fin 64 × Fin 32} :
    d ∈ litCells policy ox oy rows ↔
      ∃ r, ∃ h : r < rows.length, ∃ c < 8, spriteBit rows[r] c = true ∧
        policyPlace policy (ox + c) (oy + r) = (d.1.val, d.2.val) := by
  induction rows generalizing oy with
  | nil => simp [litCells]
  | cons row rows ih =>
    rw [litCells, List.mem_append, mem_litCellsOfRow, ih]
    constructor
    · rintro (⟨c, hc, hb, hp⟩ | ⟨r, hr, c, hc, hb, hp⟩)
      · exact ⟨0, by simp, c, hc, hb, hp⟩
      · exact ⟨r + 1, by simpa using hr, c, hc, by simpa using hb, by rw [← hp]; congr 1; omega⟩
    · rintro ⟨r, hr, c, hc, hb, hp⟩
      cases r with
      | zero => exact .inl ⟨c, hc, hb, hp⟩
      | succ r =>
        exact .inr ⟨r, by simpa using hr, c, hc, by simpa using hb, by rw [← hp]; congr 1; omega⟩

/-- No two pixels of one row share a cell (R127 case (d)). -/
theorem nodup_litCellsOfRow (policy : Config.EdgePolicy) (ox cy : Nat) (row : Byte) :
    (litCellsOfRow policy ox cy row).Nodup := by
  rw [litCellsOfRow, List.Nodup, List.pairwise_filterMap]
  refine List.Pairwise.imp_of_mem (fun {c c'} hc hc' hne d hd d' hd' heq => hne ?_) List.nodup_range
  subst heq
  rw [List.mem_range] at hc hc'
  split at hd <;> split at hd' <;> simp_all only [reduceCtorEq, spriteCell_eq_some]
  have h := hd.trans hd'.symm
  cases policy <;> simp only [policyPlace, Prod.mk.injEq] at h <;> omega

/-- No two pixels of a sprite share a cell: 8 columns are at most 64 and 15 rows at most 32 (R127 case (d)). -/
theorem nodup_litCells (policy : Config.EdgePolicy) (ox oy : Nat) (rows : List Byte) (h : rows.length ≤ 32) :
    (litCells policy ox oy rows).Nodup := by
  induction rows generalizing oy with
  | nil => simp [litCells]
  | cons row rows ih =>
    rw [List.length_cons] at h
    rw [litCells, List.nodup_append]
    refine ⟨nodup_litCellsOfRow .., ih _ (by omega), fun d hd d' hd' heq => ?_⟩
    subst heq
    obtain ⟨c, -, -, hp⟩ := mem_litCellsOfRow.1 hd
    obtain ⟨r, hr, c', -, -, hp'⟩ := mem_litCells.1 hd'
    have h := hp.trans hp'.symm
    cases policy <;> simp only [policyPlace, Prod.mk.injEq] at h <;> omega

/-- Sprite bit `c` of a row as a number: bit 7 is column 0 (R130). -/
theorem spriteBit_eq_true {row : Byte} {c : Nat} : spriteBit row c = true ↔ row.toNat / 2 ^ (7 - c) % 2 = 1 := by
  rw [spriteBit, ← BitVec.testBit_toNat, Nat.testBit_eq_decide_div_mod_eq, decide_eq_true_iff]

end Sys2Proof.Machine
end

