-- ==== Sys2Proof/Laws/Exec.lean ====
section
/-! SUPPORT. Everything `exec` can do, said once: the shapes of its next states, and that no instruction is refused. -/

namespace Sys2Proof.Machine

/-- Everything a result with a flag can be (R101). -/
theorem writeResultFlag_cases (s : State) (x : RegIdx) (r f : Byte) :
    s.writeResultFlag x r f = s.drawFlag ∨ s.writeResultFlag x r f = (s.writeReg x r).writeReg vF f := by
  unfold State.writeResultFlag
  split <;> simp

/-- Everything a sprite can do (R127): one of two faults, or a finished plot. -/
theorem drawSprite_cases (policy : Config.EdgePolicy) (x y : RegIdx) (n : Nibble) (s : State) :
    (∃ c, State.drawSprite policy x y n s = .error c ∧ (c = .memoryOutOfRange ∨ c = .framebufferOutOfRange)) ∨
    (∃ p, State.drawSprite policy x y n s = .ok (s.writePlot p)) := by
  unfold State.drawSprite
  rcases readBytes_cases s (s.effectiveAddr 0) n.toNat with ⟨h, _⟩ | ⟨h, _⟩ <;> rw [h]
  · exact .inl ⟨_, rfl, .inl rfl⟩
  · simp only [bind, Except.bind]
    split
    · exact .inl ⟨_, rfl, .inr rfl⟩
    · exact .inr ⟨_, rfl⟩

/-- When an instruction can raise a cause (R200): the nine forms and their conditions. -/
def CanRaise (i : Instr) (s : State) (c : Cause) : Prop :=
  ((∃ nnn, i = .call nnn) ∧ c = .stackOverflow ∧ 16 ≤ s.view .sp) ∨
  (i = .ret ∧ c = .stackUnderflow ∧ s.view .sp = 0) ∨
  ((∃ x y n, i = .drawSprite x y n) ∧ (c = .memoryOutOfRange ∨ c = .framebufferOutOfRange)) ∨
  ((∃ x, i = .storeBcdDigits x ∨ i = .storeRegistersToMemory x ∨ i = .loadRegistersFromMemory x) ∧
    c = .memoryOutOfRange) ∨
  (∃ x, (i = .skipIfKeyPressed x ∨ i = .skipIfKeyNotPressed x) ∧ c = .keyIndexOutOfRange ∧
    15 < s.view (.reg x)) ∨
  (∃ x, i = .loadFontAddress x ∧ c = .fontDigitOutOfRange ∧ 15 < s.view (.reg x))

/-- EVERYTHING `exec` CAN DO when it answers a next state, by the shape of the update: each constructor is one shape,
and its premises say which instructions have it where later proofs need to know. -/
inductive Effect (i : Instr) (s : State) : State → Prop where
  | raise (c : Cause) (h : CanRaise i s c) : Effect i s (s.raise c (some (encode i)))
  | pc (w : Word) (h : w.toNat ≤ 0x10FE ∨ w = s.pc ∨ (s.pc.toNat ≤ 4094 → w.toNat ≤ 4098)) :
      Effect i s (s.jumpTo w)
  | reg (x : RegIdx) (b : Byte) : Effect i s (s.advance.writeReg x b)
  | flag (x : RegIdx) (a b : Byte) : Effect i s ((s.advance.writeReg x a).writeReg vF b)
  | draw : Effect i s s.advance.drawFlag
  | random (x : RegIdx) (b : Byte) : Effect i s (s.advance.writeReg x b).countDraw
  | clear (h : i = .clearScreen) : Effect i s { s.advance with fb := blankScreen, redraw := true }
  | plot (p : Plot) (h : ∃ x y n, i = .drawSprite x y n) : Effect i s (s.advance.writePlot p)
  | index (w : Word) (h : (∃ nnn, i = .loadIndex nnn) ∨ ∃ x, i = .addToIndex x ∨ i = .loadFontAddress x) :
      Effect i s (s.advance.setIndex w)
  | delay (b : Byte) : Effect i s (s.advance.setDelayTimer b)
  | sound (b : Byte) (h : ∃ x, i = .setSound x) : Effect i s (s.advance.setSoundTimer b)
  | call (nnn : Addr) (hi : i = .call nnn) (h : s.sp.toNat < 16) :
      Effect i s { s with pc := zext16 nnn, stack := s.stack.set s.sp.toNat (s.pc + 2) h, sp := s.sp + 1 }
  | ret (hi : i = .ret) (h0 : s.sp ≠ 0) (h : s.sp.toNat - 1 < 16) :
      Effect i s { s with sp := s.sp - 1, pc := s.stack[s.sp.toNat - 1] }
  | store (a : Nat) (bs : List Byte) (h : a + bs.length ≤ 4096)
      (hi : ∃ x, i = .storeBcdDigits x ∨ i = .storeRegistersToMemory x) :
      Effect i s { s.advance with mem := s.mem.writeAll a bs }
  | loads (bs : List Byte) : Effect i s (State.writeRegsFrom 0 bs s.advance)

variable {i : Instr} {s t : State}

/-- A skip only moves `PC` (R90). -/
theorem effect_skip (s : State) (c : Bool) : Effect i s (s.advance.skipIf c) := by
  have : s.advance.skipIf c = s.jumpTo (if c then s.pc + 2 + 2 else s.pc + 2) := by cases c <;> rfl
  rw [this]; refine .pc _ (.inr (.inr fun h => ?_))
  cases c <;> simp [BitVec.toNat_add] <;> omega

/-- An instruction without effect only moves `PC` (R175). -/
theorem effect_advance (s : State) : Effect i s s.advance := by
  refine .pc (s.pc + 2) (.inr (.inr fun h => ?_))
  simp [BitVec.toNat_add]; omega

/-- A result with a flag (R101). -/
theorem effect_flag (s : State) (x : RegIdx) (r f : Byte) : Effect i s (s.advance.writeResultFlag x r f) := by
  rcases writeResultFlag_cases s.advance x r f with h | h <;> rw [h]
  · exact .draw
  · exact .flag ..

/-- A key skip (R140): it faults, or it only moves `PC`. -/
theorem effect_key {x : RegIdx} {test : Bool → Bool} (hi : i = .skipIfKeyPressed x ∨ i = .skipIfKeyNotPressed x)
    (h : s.mayRaise (encode i) (fun u => do
      let k ← keyOperand (u.readReg x)
      return u.skipIf (test u.keys[k])) = .next t) : Effect i s t := by
  by_cases hs : (s.readReg x).toNat < 16
  · rw [mayRaise_of_ok (by rw [advance_readReg, keyOperand_ok hs]; rfl)] at h
    cases h
    exact effect_skip _ _
  · rw [mayRaise_of_error (by rw [advance_readReg, keyOperand_error (by omega)]; rfl)] at h
    cases h
    exact .raise _ (.inr (.inr (.inr (.inr (.inl ⟨x, hi, rfl, Nat.le_of_not_lt hs⟩)))))

/-- A checked store (R165, R166): it faults before any write, or only memory and `PC` change. -/
theorem effect_store {x : RegIdx} {bytes : State → List Byte}
    (hi : i = .storeBcdDigits x ∨ i = .storeRegistersToMemory x)
    (h : s.mayRaise (encode i) (fun u => u.writeBytes (u.effectiveAddr 0) (bytes u)) = .next t)
    (hn : 0 < (bytes s.advance).length) : Effect i s t := by
  rcases writeBytes_cases s.advance (s.advance.effectiveAddr 0) (bytes s.advance) with ⟨e, -⟩ | ⟨e, h1⟩
  · rw [mayRaise_of_error e] at h
    cases h
    exact .raise _ (.inr (.inr (.inr (.inl ⟨⟨x, hi.imp id .inl⟩, rfl⟩))))
  · rw [mayRaise_of_ok e] at h
    cases h
    exact .store _ _ (by omega) ⟨x, hi⟩

/-- Every next state of `exec` has one of the shapes. -/
theorem exec_cases (h : exec i s = .next t) : Effect i s t := by
  cases i with
  | clearScreen => cases h; exact .clear rfl
  | ret =>
    rw [exec, execRet] at h
    split at h
    · rename_i h0
      cases h
      exact .raise _ (.inr (.inl ⟨rfl, rfl, by rw [State.view, h0]; rfl⟩))
    · split at h
      · cases h; exact .ret rfl ‹_› ‹_›
      · cases h
  | call nnn =>
    rw [exec, execCall] at h
    by_cases hs : s.sp.toNat < 16
    · rw [mayRaise_of_ok (by rw [push_ok (by simpa using hs)]; rfl)] at h
      cases h
      exact .call nnn rfl hs
    · rw [mayRaise_of_error (by rw [push_error (by simpa using hs)]; rfl)] at h
      cases h
      exact .raise _ (.inl ⟨⟨_, rfl⟩, rfl, Nat.le_of_not_lt hs⟩)
  | sys | skipIfEqualByte | skipIfNotEqualByte | skipIfRegistersEqual | skipIfRegistersNotEqual =>
    cases h
    first | exact effect_advance _ | exact effect_skip _ _
  | jump nnn =>
    cases h
    exact .pc (zext16 nnn) (.inl (by simp [zext16]; omega))
  | jumpWithOffset nnn =>
    cases h
    refine .pc (zext16 nnn + zext16Byte (s.readReg 0)) (.inl ?_)
    have := nnn.isLt
    have := (s.readReg 0).isLt
    simp [zext16, zext16Byte, BitVec.toNat_add]
    omega
  | loadByte | addByte | load | or | and | xor | loadDelay => cases h; exact .reg ..
  | add | sub | subn | shiftRight | shiftLeft => cases h; exact effect_flag ..
  | randomAndMask => cases h; exact .random ..
  | drawSprite x y n =>
    rw [exec, execDrawSprite] at h
    rcases drawSprite_cases drawEdgePolicy x y n s.advance with ⟨c, e, hc⟩ | ⟨p, e⟩
    · rw [mayRaise_of_error e] at h
      cases h
      exact .raise c (.inr (.inr (.inl ⟨⟨_, _, _, rfl⟩, hc⟩)))
    · rw [mayRaise_of_ok e] at h
      cases h
      exact .plot p ⟨_, _, _, rfl⟩
  | skipIfKeyPressed x => exact effect_key (test := id) (.inl rfl) h
  | skipIfKeyNotPressed x => exact effect_key (test := (!·)) (.inr rfl) h
  | blockWaitForKey x =>
    rw [exec, execBlockWaitForKey, runs_eq] at h
    cases h
    split
    · exact .reg ..
    · rw [show s.advance.jumpTo (s.advance.pc - 2) = s.jumpTo s.pc by simp [State.advance, State.jumpTo]]
      exact .pc _ (.inr (.inl rfl))
  | setDelay => cases h; exact .delay _
  | setSound => cases h; exact .sound _ ⟨_, rfl⟩
  | loadIndex => cases h; exact .index _ (.inl ⟨_, rfl⟩)
  | addToIndex => cases h; exact .index _ (.inr ⟨_, .inl rfl⟩)
  | loadFontAddress x =>
    rw [exec, execLoadFontAddress] at h
    by_cases hs : (s.readReg x).toNat < 16
    · rw [mayRaise_of_ok (by rw [advance_readReg, glyphOperand_ok hs]; rfl)] at h
      cases h
      exact .index _ (.inr ⟨_, .inr rfl⟩)
    · rw [mayRaise_of_error (by rw [advance_readReg, glyphOperand_error (by omega)]; rfl)] at h
      cases h
      exact .raise _ (.inr (.inr (.inr (.inr (.inr ⟨x, rfl, rfl, Nat.le_of_not_lt hs⟩)))))
  | storeBcdDigits x => exact effect_store (bytes := fun u => bcdDigits (u.readReg x)) (.inl rfl) h (by simp)
  | storeRegistersToMemory x => exact effect_store (bytes := fun u => u.readRegsUpTo x) (.inr rfl) h (by simp)
  | loadRegistersFromMemory x =>
    rw [exec, execLoadRegistersFromMemory] at h
    rcases readBytes_cases s.advance (s.advance.effectiveAddr 0) (x.toNat + 1) with ⟨e, -⟩ | ⟨e, -⟩
    · rw [mayRaise_of_error (by rw [e]; rfl)] at h
      cases h
      exact .raise _ (.inr (.inr (.inr (.inl ⟨⟨x, .inr (.inr rfl)⟩, rfl⟩))))
    · rw [mayRaise_of_ok (by rw [e]; rfl)] at h
      cases h
      exact .loads _

/-- No instruction is refused, and only RETURN without a slot stops (log 6). -/
theorem exec_answers (i : Instr) (s : State) (h : s.sp.toNat ≤ 16) : ∃ t, exec i s = .next t := by
  cases i with
  | ret =>
    rw [exec, execRet]
    split
    · exact ⟨_, rfl⟩
    · rw [dif_pos (by omega)]
      exact ⟨_, rfl⟩
  | call | drawSprite | skipIfKeyPressed | skipIfKeyNotPressed | loadFontAddress | storeBcdDigits
  | storeRegistersToMemory | loadRegistersFromMemory =>
    simp only [exec, execCall, execDrawSprite, execSkipIfKeyPressed, execSkipIfKeyNotPressed, execLoadFontAddress,
      execStoreBcdDigits, execStoreRegistersToMemory, execLoadRegistersFromMemory]
    exact mayRaise_next _
  | _ => exact ⟨_, rfl⟩

end Sys2Proof.Machine
end

