-- ==== Sys2Proof/Laws/Host.lean ====
section
/-! SUPPORT. Everything a move of a session can do, said once, and how schedules compose (50_step_cycle.md R186 to R193). -/

namespace Sys2Proof.Machine

variable {h h' : Session} {m : Move}

/-- The ROM load when the ROM fits (R232). -/
theorem hostLoad_ok {s : State} {rom : List Byte} (hl : rom.length ≤ 3584) :
    s.hostLoad rom = .next { s with mem := s.mem.writeAll Config.progBase rom } :=
  if_pos (by simp only [Config.progBase, Config.memSize]; omega)

/-- The ROM load when it does not (R233). -/
theorem hostLoad_tooLong {s : State} {rom : List Byte} (hl : 3584 < rom.length) :
    s.hostLoad rom = .refused .loadTooLong :=
  if_neg (by simp only [Config.progBase, Config.memSize]; omega)

/-- Lifting an answer keeps its shape and ends loading. -/
theorem afterRun_eq_next {a : Answer} : Session.afterRun a = .next h' ↔ ∃ t, a = .next t ∧ h' = ⟨t, false⟩ := by
  cases a <;> simp [Session.afterRun, eq_comm]

/-- Everything a move that answers a session can do. -/
theorem act_cases (e : h.act m = .next h') :
    (∃ rom t, m = .load rom ∧ h.mayLoad = true ∧ h.machine.hostLoad rom = .next t ∧ h' = ⟨t, false⟩) ∨
    (∃ t, m = .step ∧ step h.machine = .next t ∧ h' = ⟨t, false⟩) ∨
    (∃ latch, m = .keys latch ∧ h' = ⟨h.machine.hostKeys latch, h.mayLoad⟩) ∨
    (∃ k pressed, m = .key k pressed ∧ h' = ⟨h.machine.hostKey k pressed, h.mayLoad⟩) ∨
    (m = .frameAck ∧ h' = ⟨h.machine.hostFrameAck, h.mayLoad⟩) := by
  cases m with
  | load rom =>
    rw [Session.act] at e
    split at e
    · obtain ⟨t, ht, rfl⟩ := afterRun_eq_next.1 e
      exact .inl ⟨rom, t, rfl, ‹_›, ht, rfl⟩
    · cases e
  | step =>
    obtain ⟨t, ht, rfl⟩ := afterRun_eq_next.1 e
    exact .inr (.inl ⟨t, rfl, ht, rfl⟩)
  | keys latch => cases e; exact .inr (.inr (.inl ⟨latch, rfl, rfl⟩))
  | key k pressed => cases e; exact .inr (.inr (.inr (.inl ⟨k, pressed, rfl, rfl⟩)))
  | frameAck => cases e; exact .inr (.inr (.inr (.inr ⟨rfl, rfl⟩)))

/-- A schedule that runs to its end, one move at a time. -/
theorem run_cons {ms : List Move} : h.run (m :: ms) = .next h' ↔ ∃ g, h.act m = .next g ∧ g.run ms = .next h' := by
  rw [Session.run]
  cases h.act m <;> simp

/-- A schedule in two parts. -/
theorem run_append {ms ns : List Move} :
    h.run (ms ++ ns) = .next h' ↔ ∃ g, h.run ms = .next g ∧ g.run ns = .next h' := by
  induction ms generalizing h with
  | nil => simp [Session.run]
  | cons m ms ih =>
    rw [List.cons_append, run_cons]
    simp only [run_cons, ih]
    constructor
    · rintro ⟨g, hg, k, hk, hn⟩; exact ⟨k, ⟨g, hg, hk⟩, hn⟩
    · rintro ⟨k, ⟨g, hg, hk⟩, hn⟩; exact ⟨g, hg, k, hk, hn⟩

end Sys2Proof.Machine
end

