-- ==== Sys2Proof/Laws/PerInstr.lean ====
section
/-! SUPPORT. Per instruction: its encoding lies in its row of the opcode map, `w & mask == match` (30_encoding.md rule
R60). -/

namespace Sys2Proof

section masks
variable (p x y n : Nibble) (r : Addr) (k : Byte)

/-- Mask 0xF000 on `op nnn` leaves the family nibble. -/
theorem NNN_and_F000 : ((p ++ r : Word) &&& 0xF000#16) = p ++ 0#12 := by
  refine BitVec.eq_of_getLsbD_eq fun i hi => ?_
  rw [BitVec.getLsbD_and, getLsbD_NNN, getLsbD_NNN]
  interval_cases i <;> simp

/-- Mask 0xF000 on `op x kk` leaves the family nibble. -/
theorem XKK_and_F000 : ((p ++ x ++ k : Word) &&& 0xF000#16) = p ++ 0#12 := by
  refine BitVec.eq_of_getLsbD_eq fun i hi => ?_
  rw [BitVec.getLsbD_and, getLsbD_XKK, getLsbD_NNN]
  interval_cases i <;> simp

/-- Mask 0xF0FF on `op x kk` leaves the family nibble and the low byte. -/
theorem XKK_and_F0FF : ((p ++ x ++ k : Word) &&& 0xF0FF#16) = p ++ 0#4 ++ k := by
  refine BitVec.eq_of_getLsbD_eq fun i hi => ?_
  rw [BitVec.getLsbD_and, getLsbD_XKK, getLsbD_XKK]
  interval_cases i <;> simp

/-- Mask 0xF000 on `op x y n` leaves the family nibble. -/
theorem XYN_and_F000 : ((p ++ x ++ y ++ n : Word) &&& 0xF000#16) = p ++ 0#12 := by
  refine BitVec.eq_of_getLsbD_eq fun i hi => ?_
  rw [BitVec.getLsbD_and, getLsbD_XYN, getLsbD_NNN]
  interval_cases i <;> simp

/-- Mask 0xF00F on `op x y n` leaves the family nibble and the sub-opcode. -/
theorem XYN_and_F00F : ((p ++ x ++ y ++ n : Word) &&& 0xF00F#16) = p ++ 0#4 ++ 0#4 ++ n := by
  refine BitVec.eq_of_getLsbD_eq fun i hi => ?_
  rw [BitVec.getLsbD_and, getLsbD_XYN, getLsbD_XYN]
  interval_cases i <;> simp

end masks

namespace Laws.OpcodeRow

/-- A row's `mask` and `match` (R60). -/
def row : Instr → Word × Word
  | .clearScreen => (0xFFFF, 0x00E0)
  | .ret => (0xFFFF, 0x00EE)
  | .sys _ => (0xF000, 0x0000)
  | .jump _ => (0xF000, 0x1000)
  | .call _ => (0xF000, 0x2000)
  | .skipIfEqualByte _ _ => (0xF000, 0x3000)
  | .skipIfNotEqualByte _ _ => (0xF000, 0x4000)
  | .skipIfRegistersEqual _ _ => (0xF000, 0x5000)
  | .loadByte _ _ => (0xF000, 0x6000)
  | .addByte _ _ => (0xF000, 0x7000)
  | .load _ _ => (0xF00F, 0x8000)
  | .or _ _ => (0xF00F, 0x8001)
  | .and _ _ => (0xF00F, 0x8002)
  | .xor _ _ => (0xF00F, 0x8003)
  | .add _ _ => (0xF00F, 0x8004)
  | .sub _ _ => (0xF00F, 0x8005)
  | .shiftRight _ _ => (0xF00F, 0x8006)
  | .subn _ _ => (0xF00F, 0x8007)
  | .shiftLeft _ _ => (0xF00F, 0x800E)
  | .skipIfRegistersNotEqual _ _ => (0xF000, 0x9000)
  | .loadIndex _ => (0xF000, 0xA000)
  | .jumpWithOffset _ => (0xF000, 0xB000)
  | .randomAndMask _ _ => (0xF000, 0xC000)
  | .drawSprite _ _ _ => (0xF000, 0xD000)
  | .skipIfKeyPressed _ => (0xF0FF, 0xE09E)
  | .skipIfKeyNotPressed _ => (0xF0FF, 0xE0A1)
  | .loadDelay _ => (0xF0FF, 0xF007)
  | .blockWaitForKey _ => (0xF0FF, 0xF00A)
  | .setDelay _ => (0xF0FF, 0xF015)
  | .setSound _ => (0xF0FF, 0xF018)
  | .addToIndex _ => (0xF0FF, 0xF01E)
  | .loadFontAddress _ => (0xF0FF, 0xF029)
  | .storeBcdDigits _ => (0xF0FF, 0xF033)
  | .storeRegistersToMemory _ => (0xF0FF, 0xF055)
  | .loadRegistersFromMemory _ => (0xF0FF, 0xF065)

/-- The encoding of `i` matches `i`'s row: `w & mask == match` (R60). -/
def Statement (i : Instr) : Prop := (encode i &&& (row i).1) = (row i).2

theorem clearScreen : Statement .clearScreen := rfl
theorem ret : Statement .ret := rfl
theorem sys (nnn : Addr) : Statement (.sys nnn) := (NNN_and_F000 _ nnn).trans rfl
theorem jump (nnn : Addr) : Statement (.jump nnn) := (NNN_and_F000 _ nnn).trans rfl
theorem call (nnn : Addr) : Statement (.call nnn) := (NNN_and_F000 _ nnn).trans rfl
theorem skipIfEqualByte (x : RegIdx) (kk : Byte) : Statement (.skipIfEqualByte x kk) :=
  (XKK_and_F000 _ x kk).trans rfl
theorem skipIfNotEqualByte (x : RegIdx) (kk : Byte) : Statement (.skipIfNotEqualByte x kk) :=
  (XKK_and_F000 _ x kk).trans rfl
theorem skipIfRegistersEqual (x y : RegIdx) : Statement (.skipIfRegistersEqual x y) :=
  (XYN_and_F000 _ x y _).trans rfl
theorem loadByte (x : RegIdx) (kk : Byte) : Statement (.loadByte x kk) := (XKK_and_F000 _ x kk).trans rfl
theorem addByte (x : RegIdx) (kk : Byte) : Statement (.addByte x kk) := (XKK_and_F000 _ x kk).trans rfl
theorem load (x y : RegIdx) : Statement (.load x y) := (XYN_and_F00F _ x y _).trans rfl
theorem or (x y : RegIdx) : Statement (.or x y) := (XYN_and_F00F _ x y _).trans rfl
theorem and (x y : RegIdx) : Statement (.and x y) := (XYN_and_F00F _ x y _).trans rfl
theorem xor (x y : RegIdx) : Statement (.xor x y) := (XYN_and_F00F _ x y _).trans rfl
theorem add (x y : RegIdx) : Statement (.add x y) := (XYN_and_F00F _ x y _).trans rfl
theorem sub (x y : RegIdx) : Statement (.sub x y) := (XYN_and_F00F _ x y _).trans rfl
theorem shiftRight (x y : RegIdx) : Statement (.shiftRight x y) := (XYN_and_F00F _ x y _).trans rfl
theorem subn (x y : RegIdx) : Statement (.subn x y) := (XYN_and_F00F _ x y _).trans rfl
theorem shiftLeft (x y : RegIdx) : Statement (.shiftLeft x y) := (XYN_and_F00F _ x y _).trans rfl
theorem skipIfRegistersNotEqual (x y : RegIdx) : Statement (.skipIfRegistersNotEqual x y) :=
  (XYN_and_F000 _ x y _).trans rfl
theorem loadIndex (nnn : Addr) : Statement (.loadIndex nnn) := (NNN_and_F000 _ nnn).trans rfl
theorem jumpWithOffset (nnn : Addr) : Statement (.jumpWithOffset nnn) := (NNN_and_F000 _ nnn).trans rfl
theorem randomAndMask (x : RegIdx) (kk : Byte) : Statement (.randomAndMask x kk) :=
  (XKK_and_F000 _ x kk).trans rfl
theorem drawSprite (x y : RegIdx) (n : Nibble) : Statement (.drawSprite x y n) :=
  (XYN_and_F000 _ x y n).trans rfl
theorem skipIfKeyPressed (x : RegIdx) : Statement (.skipIfKeyPressed x) := (XKK_and_F0FF _ x _).trans rfl
theorem skipIfKeyNotPressed (x : RegIdx) : Statement (.skipIfKeyNotPressed x) := (XKK_and_F0FF _ x _).trans rfl
theorem loadDelay (x : RegIdx) : Statement (.loadDelay x) := (XKK_and_F0FF _ x _).trans rfl
theorem blockWaitForKey (x : RegIdx) : Statement (.blockWaitForKey x) := (XKK_and_F0FF _ x _).trans rfl
theorem setDelay (x : RegIdx) : Statement (.setDelay x) := (XKK_and_F0FF _ x _).trans rfl
theorem setSound (x : RegIdx) : Statement (.setSound x) := (XKK_and_F0FF _ x _).trans rfl
theorem addToIndex (x : RegIdx) : Statement (.addToIndex x) := (XKK_and_F0FF _ x _).trans rfl
theorem loadFontAddress (x : RegIdx) : Statement (.loadFontAddress x) := (XKK_and_F0FF _ x _).trans rfl
theorem storeBcdDigits (x : RegIdx) : Statement (.storeBcdDigits x) := (XKK_and_F0FF _ x _).trans rfl
theorem storeRegistersToMemory (x : RegIdx) : Statement (.storeRegistersToMemory x) :=
  (XKK_and_F0FF _ x _).trans rfl
theorem loadRegistersFromMemory (x : RegIdx) : Statement (.loadRegistersFromMemory x) :=
  (XKK_and_F0FF _ x _).trans rfl

end Laws.OpcodeRow

end Sys2Proof
end

