-- ==== Sys2Proof/Tests/Slice0.lean ====
section
/-! SUPPORT. Tests of one decode or one step each, with expected results from 95_test_vectors.md (the vector's name
stands in each comment), the WellFormed smoke test, and a witness for every statement that has hypotheses. -/

namespace Sys2Proof.Tests

open Sys2Proof Sys2Proof.Machine

/-! ### Well-formedness -/

/-- SYS covers every `0nnn` but two words (R64): the ill-formed terms are refused. -/
theorem test_wf_sys_clear_screen : ¬ (Instr.sys 0x0E0).WellFormed := by decide

theorem test_wf_sys_return : ¬ (Instr.sys 0x0EE).WellFormed := by decide

theorem test_wf_sys_neighbour : (Instr.sys 0x0E1).WellFormed := by decide

/-! ### Decoding: words written out bit by bit from the patterns of R60 -/

/-- 00E0 (S4). -/
theorem test_decode_clear_screen :
    decodeWord 0b0000_0000_1110_0000#16 = .ok (.clearScreen) := by decide

/-- 00EE (S4). -/
theorem test_decode_return :
    decodeWord 0b0000_0000_1110_1110#16 = .ok (.ret) := by decide

/-- 0FFF (E4). -/
theorem test_decode_sys :
    decodeWord 0b0000_1111_1111_1111#16 = .ok (.sys 0xFFF) := by decide

/-- 1ABC (S4). -/
theorem test_decode_jump :
    decodeWord 0b0001_1010_1011_1100#16 = .ok (.jump 0xABC) := by decide

/-- 2123 (S4). -/
theorem test_decode_call :
    decodeWord 0b0010_0001_0010_0011#16 = .ok (.call 0x123) := by decide

/-- 3140 (S4). -/
theorem test_decode_skip_if_equal_byte :
    decodeWord 0b0011_0001_0100_0000#16 = .ok (.skipIfEqualByte 1 0x40) := by decide

/-- 4140 (S4). -/
theorem test_decode_skip_if_not_equal_byte :
    decodeWord 0b0100_0001_0100_0000#16 = .ok (.skipIfNotEqualByte 1 0x40) := by decide

/-- 512F (E5, low nibble ignored). -/
theorem test_decode_skip_if_registers_equal :
    decodeWord 0b0101_0001_0010_1111#16 = .ok (.skipIfRegistersEqual 1 2) := by decide

/-- 6112 (S4). -/
theorem test_decode_load_byte :
    decodeWord 0b0110_0001_0001_0010#16 = .ok (.loadByte 1 0x12) := by decide

/-- 7101 (S4). -/
theorem test_decode_add_byte :
    decodeWord 0b0111_0001_0000_0001#16 = .ok (.addByte 1 0x01) := by decide

/-- 8AB0 (E7). -/
theorem test_decode_load :
    decodeWord 0b1000_1010_1011_0000#16 = .ok (.load 0xA 0xB) := by decide

/-- 87B1 (S4, the document's own). -/
theorem test_decode_or :
    decodeWord 0b1000_0111_1011_0001#16 = .ok (.or 7 0xB) := by decide

/-- 8122 (A11). -/
theorem test_decode_and :
    decodeWord 0b1000_0001_0010_0010#16 = .ok (.and 1 2) := by decide

/-- 8123 (A12). -/
theorem test_decode_xor :
    decodeWord 0b1000_0001_0010_0011#16 = .ok (.xor 1 2) := by decide

/-- 8014 (A14). -/
theorem test_decode_add :
    decodeWord 0b1000_0000_0001_0100#16 = .ok (.add 0 1) := by decide

/-- 8015 (A20). -/
theorem test_decode_sub :
    decodeWord 0b1000_0000_0001_0101#16 = .ok (.sub 0 1) := by decide

/-- 8236 (A29). -/
theorem test_decode_shift_right :
    decodeWord 0b1000_0010_0011_0110#16 = .ok (.shiftRight 2 3) := by decide

/-- 8017 (A25). -/
theorem test_decode_subn :
    decodeWord 0b1000_0000_0001_0111#16 = .ok (.subn 0 1) := by decide

/-- 8ABE (E8). -/
theorem test_decode_shift_left :
    decodeWord 0b1000_1010_1011_1110#16 = .ok (.shiftLeft 0xA 0xB) := by decide

/-- 9ABC (E6, low nibble ignored). -/
theorem test_decode_skip_if_registers_not_equal :
    decodeWord 0b1001_1010_1011_1100#16 = .ok (.skipIfRegistersNotEqual 0xA 0xB) := by decide

/-- A123 (E11). -/
theorem test_decode_load_index :
    decodeWord 0b1010_0001_0010_0011#16 = .ok (.loadIndex 0x123) := by decide

/-- B123 (E12). -/
theorem test_decode_jump_with_offset :
    decodeWord 0b1011_0001_0010_0011#16 = .ok (.jumpWithOffset 0x123) := by decide

/-- C1FF (E13). -/
theorem test_decode_random_and_mask :
    decodeWord 0b1100_0001_1111_1111#16 = .ok (.randomAndMask 1 0xFF) := by decide

/-- D12F (E14). -/
theorem test_decode_draw_sprite :
    decodeWord 0b1101_0001_0010_1111#16 = .ok (.drawSprite 1 2 15) := by decide

/-- E19E (E16). -/
theorem test_decode_skip_if_key_pressed :
    decodeWord 0b1110_0001_1001_1110#16 = .ok (.skipIfKeyPressed 1) := by decide

/-- E1A1 (E17). -/
theorem test_decode_skip_if_key_not_pressed :
    decodeWord 0b1110_0001_1010_0001#16 = .ok (.skipIfKeyNotPressed 1) := by decide

/-- F107 (E20). -/
theorem test_decode_load_delay :
    decodeWord 0b1111_0001_0000_0111#16 = .ok (.loadDelay 1) := by decide

/-- F10A (E21). -/
theorem test_decode_block_wait_for_key :
    decodeWord 0b1111_0001_0000_1010#16 = .ok (.blockWaitForKey 1) := by decide

/-- F115 (E22). -/
theorem test_decode_set_delay :
    decodeWord 0b1111_0001_0001_0101#16 = .ok (.setDelay 1) := by decide

/-- F118 (E23). -/
theorem test_decode_set_sound :
    decodeWord 0b1111_0001_0001_1000#16 = .ok (.setSound 1) := by decide

/-- F11E (E24). -/
theorem test_decode_add_to_index :
    decodeWord 0b1111_0001_0001_1110#16 = .ok (.addToIndex 1) := by decide

/-- F129 (E25). -/
theorem test_decode_load_font_address :
    decodeWord 0b1111_0001_0010_1001#16 = .ok (.loadFontAddress 1) := by decide

/-- F133 (E26). -/
theorem test_decode_store_bcd_digits :
    decodeWord 0b1111_0001_0011_0011#16 = .ok (.storeBcdDigits 1) := by decide

/-- F155 (E27). -/
theorem test_decode_store_registers :
    decodeWord 0b1111_0001_0101_0101#16 = .ok (.storeRegistersToMemory 1) := by decide

/-- F165 (E28). -/
theorem test_decode_load_registers :
    decodeWord 0b1111_0001_0110_0101#16 = .ok (.loadRegistersFromMemory 1) := by decide

/-- 0000 (E1). -/
theorem test_decode_sys_zero : decodeWord 0x0000 = .ok (.sys 0) := by decide

/-- D120 (E15). -/
theorem test_decode_height_zero : decodeWord 0xD120 = .ok (.drawSprite 1 2 0) := by decide

/-- 8AB8 (E9). -/
theorem test_decode_no_sub_opcode : decodeWord 0x8AB8 = .error (.fatal 0x8AB8) := by decide

/-- 8ABF (E10). -/
theorem test_decode_no_sub_opcode_f : decodeWord 0x8ABF = .error (.fatal 0x8ABF) := by decide

/-- E19F (E18). -/
theorem test_decode_no_key_form : decodeWord 0xE19F = .error (.recoverable 0xE19F) := by decide

/-- F175 (E30). -/
theorem test_decode_no_family_f : decodeWord 0xF175 = .error (.fatal 0xF175) := by decide

/-- FFFF (E31). -/
theorem test_decode_all_ones : decodeWord 0xFFFF = .error (.fatal 0xFFFF) := by decide

/-- R60, R40: the first byte in memory is the high byte. -/
theorem test_decode_bytes : decode [0x12, 0x34, 0x56] = .ok (.jump 0x234, [0x56]) := by decide

/-- A table word with the row's own bits (16 for every row here). -/
theorem test_decode_table_word : decodeTableWord 16 0x87B1 = some (.or 7 0xB) := by decide

/-- R55: a word of more than 16 bits is no opcode. -/
theorem test_decode_table_word_too_wide : decodeTableWord 24 0x187B1 = none := by decide

/-! ### One step -/

/-- "Start" of Part 2: the construction state with `REDRAW` false. -/
def start : State := { State.reset with redraw := false }

/-- Set registers. -/
def regs (s : State) (l : List (RegIdx × Byte)) : State := l.foldl (fun u p => u.writeReg p.1 p.2) s

/-- Place bytes. -/
def bytes (s : State) (a : Nat) (bs : List Byte) : State := { s with mem := s.mem.writeAll a bs }

/-- One step with the opcode placed at `PC`, high byte first. -/
def one (s : State) (w : Word) : Answer := step (bytes s s.pc.toNat [hiByte w, loByte w])

/-- Look at a next state. -/
def see {α : Type} (f : State → α) : Answer → Option α
  | .next t => some (f t)
  | .fault _ => none
  | .refused _ => none

/-- G2: set although the screen was blank. -/
theorem test_clear_screen :
    see (fun t => (t.redraw, t.v[15]))
        (one start 0x00E0) =
      some (true, 0) := by decide

/-- G1. -/
theorem test_clear_screen_cell :
    see (fun t => Screen.cell t.fb (63, 31))
        (one { start with fb := Screen.toggle start.fb (63, 31) } 0x00E0) =
      some false := by decide

/-- J8: all 16 slots in use. -/
theorem test_return :
    see (fun t => (t.pc, t.sp))
        (one { start with sp := 16, stack := start.stack.set 15 0xABC } 0x00EE) =
      some (0xABC, 15) := by decide

/-- J9. -/
theorem test_return_underflow :
    see (fun t => (t.fault, t.pc))
        (one start 0x00EE) =
      some (some ⟨.stackUnderflow, some 0x00EE, 0x200⟩, 0x200) := by decide

/-- X2: the last fetchable address. -/
theorem test_sys :
    see (fun t => (t.pc, t.fault))
        (one { start with pc := 0xFFE } 0x0000) =
      some (0x1000, none) := by decide

/-- T9. -/
theorem test_sys_decays :
    see (fun t => (t.dt, t.st))
        (one { start with dt := 1, st := 1 } 0x0000) =
      some (0, 0) := by decide

/-- J1. -/
theorem test_jump :
    see (fun t => t.pc)
        (one start 0x1ABC) =
      some 0xABC := by decide

/-- T11: every instruction decays the timers. -/
theorem test_jump_decays :
    see (fun t => (t.pc, t.dt))
        (one { start with dt := 0xFF } 0x1200) =
      some (0x200, 0xFE) := by decide

/-- J5: the last free slot. -/
theorem test_call :
    see (fun t => (t.stack[15], t.sp, t.pc))
        (one { start with sp := 15 } 0x2300) =
      some (0x202, 16, 0x300) := by decide

/-- J6, with a timer running: a faulting step decays nothing. -/
theorem test_call_overflow :
    see (fun t => (t.fault, t.pc, t.dt))
        (one { start with sp := 16, dt := 5 } 0x2300) =
      some (some ⟨.stackOverflow, some 0x2300, 0x200⟩, 0x200, 5) := by decide

/-- B1. -/
theorem test_skip_if_equal_byte :
    see (fun t => t.pc)
        (one (regs start [(1, 0x40)]) 0x3140) =
      some 0x204 := by decide

/-- B13: a skip past the end of memory does not fault itself. -/
theorem test_skip_if_equal_byte_end :
    see (fun t => (t.pc, t.fault))
        (one { start with pc := 0xFFC } 0x3000) =
      some (0x1000, none) := by decide

/-- B4. -/
theorem test_skip_if_not_equal_byte :
    see (fun t => t.pc)
        (one (regs start [(1, 0x41)]) 0x4140) =
      some 0x204 := by decide

/-- B3. -/
theorem test_skip_if_not_equal_byte_no :
    see (fun t => t.pc)
        (one (regs start [(1, 0x40)]) 0x4140) =
      some 0x202 := by decide

/-- B7: low nibble ignored. -/
theorem test_skip_if_registers_equal :
    see (fun t => t.pc)
        (one (regs start [(1, 7), (2, 7)]) 0x512F) =
      some 0x204 := by decide

/-- B6. -/
theorem test_skip_if_registers_equal_no :
    see (fun t => t.pc)
        (one (regs start [(1, 7), (2, 8)]) 0x5120) =
      some 0x202 := by decide

/-- A2. -/
theorem test_load_byte :
    see (fun t => t.readReg 15)
        (one start 0x6FAB) =
      some 0xAB := by decide

/-- X6: an odd address is fetchable. -/
theorem test_load_byte_odd :
    see (fun t => (t.readReg 10, t.pc))
        (one { start with pc := 0x201 } 0x6A55) =
      some (0x55, 0x203) := by decide

/-- A3: no carry out. -/
theorem test_add_byte :
    see (fun t => (t.readReg 1, t.readReg 15))
        (one (regs start [(1, 0xFF), (15, 1)]) 0x7101) =
      some (0, 1) := by decide

/-- A7. -/
theorem test_load :
    see (fun t => t.readReg 1)
        (one (regs start [(2, 0x33)]) 0x8120) =
      some 0x33 := by decide

/-- A10. -/
theorem test_or :
    see (fun t => (t.readReg 7, t.readReg 15))
        (one (regs start [(7, 0xF0), (11, 0x0F), (15, 1)]) 0x87B1) =
      some (0xFF, 1) := by decide

/-- A11. -/
theorem test_and :
    see (fun t => t.readReg 1)
        (one (regs start [(1, 0xF3), (2, 0x3C)]) 0x8122) =
      some 0x30 := by decide

/-- A12. -/
theorem test_xor :
    see (fun t => t.readReg 1)
        (one (regs start [(1, 0xFF), (2, 0x0F)]) 0x8123) =
      some 0xF0 := by decide

/-- A14. -/
theorem test_add :
    see (fun t => (t.readReg 0, t.readReg 15))
        (one (regs start [(0, 0xFF), (1, 0x02)]) 0x8014) =
      some (1, 1) := by decide

/-- A18: the old flag is the operand. -/
theorem test_add_flag_operand :
    see (fun t => (t.readReg 1, t.readReg 15))
        (one (regs start [(1, 0xFF), (15, 1)]) 0x81F4) =
      some (0, 1) := by decide

/-- A20. -/
theorem test_sub :
    see (fun t => (t.readReg 0, t.readReg 15))
        (one (regs start [(0, 1), (1, 2)]) 0x8015) =
      some (0xFF, 0) := by decide

/-- A21: equal operands give flag 0. -/
theorem test_sub_equal :
    see (fun t => (t.readReg 0, t.readReg 15))
        (one (regs start [(0, 7), (1, 7), (15, 1)]) 0x8015) =
      some (0, 0) := by decide

/-- A29: `V3` is not read. -/
theorem test_shift_right :
    see (fun t => (t.readReg 2, t.readReg 15))
        (one (regs start [(2, 0x05), (3, 0xFF)]) 0x8236) =
      some (2, 1) := by decide

/-- A25. -/
theorem test_subn :
    see (fun t => (t.readReg 0, t.readReg 15))
        (one (regs start [(0, 2), (1, 5)]) 0x8017) =
      some (3, 1) := by decide

/-- A26. -/
theorem test_subn_borrow :
    see (fun t => (t.readReg 0, t.readReg 15))
        (one (regs start [(0, 5), (1, 2)]) 0x8017) =
      some (0xFD, 0) := by decide

/-- A35: `V1` is not read. -/
theorem test_shift_left :
    see (fun t => (t.readReg 0, t.readReg 15))
        (one (regs start [(0, 0x80), (1, 0x11)]) 0x801E) =
      some (0, 1) := by decide

/-- A34. -/
theorem test_shift_left_no_carry :
    see (fun t => (t.readReg 0, t.readReg 15))
        (one (regs start [(0, 0x7F), (15, 1)]) 0x800E) =
      some (0xFE, 0) := by decide

/-- B11: low nibble ignored. -/
theorem test_skip_if_registers_not_equal :
    see (fun t => t.pc)
        (one (regs start [(1, 7), (2, 8)]) 0x912B) =
      some 0x204 := by decide

/-- B12: never when x = y. -/
theorem test_skip_if_registers_not_equal_no :
    see (fun t => t.pc)
        (one start 0x9330) =
      some 0x202 := by decide

/-- M2. -/
theorem test_load_index :
    see (fun t => t.index)
        (one { start with index := 0xFFFF } 0xAFFF) =
      some 0x0FFF := by decide

/-- J12: no 12-bit mask. -/
theorem test_jump_with_offset :
    see (fun t => t.pc)
        (one (regs start [(0, 0xFF)]) 0xBFFF) =
      some 0x10FE := by decide

/-- J11: `V2` plays no part. -/
theorem test_jump_with_offset_v0 :
    see (fun t => t.pc)
        (one (regs start [(0, 0xFF), (2, 0x55)]) 0xB2FE) =
      some 0x3FD := by decide

/-- G9: the column after the last that fits. -/
theorem test_draw_sprite_edge :
    see (fun t => (t.fault, t.readReg 15))
        (one { (regs (bytes start 0x300 [0xFF]) [(0, 57)]) with index := 0x300 } 0xD011) =
      some (some ⟨.framebufferOutOfRange, some 0xD011, 0x200⟩, 0) := by decide

/-- G5: only the origin is reduced. -/
theorem test_draw_sprite_origin :
    see (fun t => (Screen.cell t.fb (6, 1), Screen.cell t.fb (13, 1), Screen.cell t.fb (7, 1), t.redraw))
        (one { (regs (bytes start 0x300 [0x81]) [(0, 70), (1, 33)]) with index := 0x300 } 0xD011) =
      some (true, true, false, true) := by decide

/-- K1. -/
theorem test_skip_if_key_pressed :
    see (fun t => t.pc)
        (one (regs { start with keys := start.keys.set 10 true } [(2, 0x0A)]) 0xE29E) =
      some 0x204 := by decide

/-- K5: not masked to key 0. -/
theorem test_skip_if_key_pressed_range :
    see (fun t => (t.fault, t.pc))
        (one (regs { start with keys := start.keys.set 0 true } [(2, 0x10)]) 0xE29E) =
      some (some ⟨.keyIndexOutOfRange, some 0xE29E, 0x200⟩, 0x200) := by decide

/-- K4. -/
theorem test_skip_if_key_not_pressed :
    see (fun t => t.pc)
        (one (regs start [(2, 0x0A)]) 0xE2A1) =
      some 0x204 := by decide

/-- K3. -/
theorem test_skip_if_key_not_pressed_down :
    see (fun t => t.pc)
        (one (regs { start with keys := start.keys.set 10 true } [(2, 0x0A)]) 0xE2A1) =
      some 0x202 := by decide

/-- T1: the value before this step's decay. -/
theorem test_load_delay :
    see (fun t => (t.readReg 3, t.dt))
        (one { start with dt := 0x2A } 0xF307) =
      some (0x2A, 0x29) := by decide

/-- K9: the lowest key. -/
theorem test_block_wait_for_key :
    see (fun t => (t.readReg 5, t.pc))
        (one { start with keys := (start.keys.set 3 true).set 9 true } 0xF50A) =
      some (3, 0x202) := by decide

/-- K7, K11. -/
theorem test_block_wait_for_key_none :
    see (fun t => (t.readReg 5, t.pc, t.dt))
        (one { (regs start [(5, 0x99)]) with dt := 3 } 0xF50A) =
      some (0x99, 0x200, 2) := by decide

/-- T4: decayed once in the same step. -/
theorem test_set_delay :
    see (fun t => t.dt)
        (one (regs start [(3, 5)]) 0xF315) =
      some 4 := by decide

/-- T7. -/
theorem test_set_sound :
    see (fun t => (t.st, t.dt))
        (one { (regs start [(3, 5)]) with dt := 2 } 0xF318) =
      some (4, 1) := by decide

/-- M4: 16-bit wraparound. -/
theorem test_add_to_index :
    see (fun t => t.index)
        (one { (regs start [(1, 1)]) with index := 0xFFFF } 0xF11E) =
      some 0 := by decide

/-- M5. -/
theorem test_add_to_index_past_memory :
    see (fun t => (t.index, t.fault))
        (one { (regs start [(1, 1)]) with index := 0x0FFF } 0xF11E) =
      some (0x1000, none) := by decide

/-- M6. -/
theorem test_load_font_address :
    see (fun t => t.index)
        (one (regs start [(1, 3)]) 0xF129) =
      some 0x005F := by decide

/-- M8. -/
theorem test_load_font_address_range :
    see (fun t => (t.fault, t.index))
        (one (regs start [(1, 16)]) 0xF129) =
      some (some ⟨.fontDigitOutOfRange, some 0xF129, 0x200⟩, 0) := by decide

/-- M9, S8. -/
theorem test_store_bcd_digits :
    see (fun t => (t.mem.read 0x300, t.mem.read 0x301, t.mem.read 0x302))
        (one { (regs start [(0, 123)]) with index := 0x300 } 0xF033) =
      some (1, 2, 3) := by decide

/-- M12: no byte is written. -/
theorem test_store_bcd_digits_range :
    see (fun t => (t.fault, t.mem.read 0xFFE))
        (one { (regs start [(0, 100)]) with index := 0xFFE } 0xF033) =
      some (some ⟨.memoryOutOfRange, some 0xF033, 0x200⟩, 0) := by decide

/-- M14. -/
theorem test_store_registers :
    see (fun t => (t.mem.read 0x208, t.mem.read 0x209, t.mem.read 0x20A, t.index))
        (one { (regs start [(0, 0x63), (1, 0x77), (2, 0x55)]) with index := 0x208 } 0xF155) =
      some (0x63, 0x77, 0, 0x208) := by decide

/-- M18. -/
theorem test_store_registers_range :
    see (fun t => t.fault)
        (one { (regs start [(0, 1)]) with index := 0x1000 } 0xF055) =
      some (some ⟨.memoryOutOfRange, some 0xF055, 0x200⟩) := by decide

/-- M19. -/
theorem test_load_registers :
    see (fun t => (t.readReg 2, t.readReg 3, t.index))
        (one { (bytes start 0x300 [2, 3, 4, 5]) with index := 0x300 } 0xF265) =
      some (4, 0, 0x300) := by decide

/-- M20: glyph 0's first byte, glyph 3's first byte. -/
theorem test_load_registers_font :
    see (fun t => (t.readReg 0, t.readReg 15))
        (one { start with index := 0x050 } 0xFF65) =
      some (0xF0, 0xF0) := by decide

/-- X3. -/
theorem test_fetch_past_the_end :
    see (fun t => (t.fault, t.pc))
        (one { start with pc := 0xFFF } 0x0000) =
      some (some ⟨.fetchOutOfRange, none, 0xFFF⟩, 0xFFF) := by decide

/-- A38. -/
theorem test_decode_fatal :
    see (fun t => (t.fault, t.pc))
        (one start 0x8008) =
      some (some ⟨.decodeFatal, some 0x8008, 0x200⟩, 0x200) := by decide

/-- K13. -/
theorem test_decode_error :
    see (fun t => (t.fault, t.pc))
        (one start 0xE000) =
      some (some ⟨.decodeError, some 0xE000, 0x200⟩, 0x200) := by decide

/-- N1 to N4: whatever the free byte is, the mask bounds the result; here `rnd` is given. -/
theorem test_random_and_mask : (State.writeMasked start 1 0xA7 0x0F).readReg 1 = 0x07 := by decide

/-- N3: a mask of 0 gives 0 whatever `rnd` is. -/
theorem test_random_and_mask_zero :
    see (fun t => (t.readReg 1, t.pc, t.draws)) (one (regs start [(1, 9)]) 0xC100) = some (0, 0x202, 1) := by
  have h : ∀ b : Byte, b &&& 0 = 0 := fun b => BitVec.and_zero
  exact congrArg (fun b => some (b, (0x202 : Word), 1)) (h (Config.freeByte 0))

/-- A19, A32, A36, A37: with `x` = 15 the final flag is the free byte, whatever it is. -/
theorem test_alias_add :
    see (fun t => (t.readReg 15, t.readReg 1, t.pc)) (one (regs start [(15, 1), (1, 2)]) 0x8F14) =
      some (Config.freeByte 0, 2, 0x202) := rfl

/-- G12: the alternates. `clip` drops the pixel at column 64. -/
theorem test_draw_clip :
    (State.drawSprite .clip 0 1 1 { (regs (bytes start 0x300 [0x01]) [(0, 57)]) with index := 0x300 }).map
      (fun t => (t.readReg 15, t.redraw, Screen.cell t.fb (0, 0))) = .ok (0, false, false) := by decide

/-- G12: `wrap` puts it in column 0. -/
theorem test_draw_wrap :
    (State.drawSprite .wrap 0 1 1 { (regs (bytes start 0x300 [0x01]) [(0, 57)]) with index := 0x300 }).map
      (fun t => (t.readReg 15, t.redraw, Screen.cell t.fb (0, 0))) = .ok (0, true, true) := by decide

/-- Byte order (Part 2, 2.10): `MEM[0x200]` = 0x12, `MEM[0x201]` = 0x34 is 0x1234. -/
theorem test_byte_order : (bytes start 0x200 [0x12, 0x34]).fetch = some 0x1234 := by decide

/-- X7: a faulted machine takes no step. -/
theorem test_faulted :
    step { start with fault := some ⟨.decodeFatal, some 0x8008, 0x200⟩ } =
      .fault (.stopped ⟨.decodeFatal, some 0x8008, 0x200⟩) := rfl

/-- X5: low memory is executable; the word goes where the next fetch reads it. -/
theorem test_with_fetch_word :
    see (fun t => t.pc) (step (State.withFetchWord { start with pc := 0 } 16 0x1234)) = some 0x234 := by decide

/-! ### Witnesses: concrete states and operands that meet the hypotheses of each statement, together, clause by
clause, at the boundary values of their ranges. The name after `witness_` is the statement's. -/

/-- A state whose `SP`, `PC`, `I` are at chosen values. -/
def boundary (sp : Byte) (pc index : Word) : State := { start with sp := sp, pc := pc, index := index }

/-- The last fetchable address, 4094, with JUMP there. -/
theorem witness_StepRunsTheFetchedInstruction :
    let s := bytes (boundary 0 4094 0) 4094 [0x1A, 0xBC]
    s.fault = none ∧ s.view .pc ≤ 4094 ∧
      (0x1ABC#16).toNat = s.view (.byte (s.view .pc)) * 256 + s.view (.byte (s.view .pc + 1)) ∧
      decodeWord 0x1ABC = .ok (.jump 0xABC) := by decide

theorem witness_FaultedMachineTakesNoStep :
    (start.raise .fetchOutOfRange none).fault = some ⟨.fetchOutOfRange, none, 0x200⟩ := by decide

/-- The largest `SP`. -/
theorem witness_UnfaultedMachineHasAStep : Safe (boundary 16 0x200 0) ∧ (boundary 16 0x200 0).view .sp ≤ 16 := by
  unfold Safe
  decide

/-- The smallest `PC` without a second byte. -/
theorem witness_FetchPastTheEndFaults : Safe (boundary 0 4095 0) ∧ 4095 ≤ (boundary 0 4095 0).view .pc := by
  unfold Safe
  decide

theorem witness_IllegalWordsFault_key :
    let s := bytes (boundary 0 4094 0) 4094 [0xE1, 0x9F]
    Safe s ∧ s.view .pc ≤ 4094 ∧
      (0xE19F#16).toNat = s.view (.byte (s.view .pc)) * 256 + s.view (.byte (s.view .pc + 1)) ∧
      UnknownKeyWord 0xE19F := by
  unfold Safe UnknownKeyWord
  decide

theorem witness_IllegalWordsFault_family8 :
    let s := bytes (boundary 0 4094 0) 4094 [0x80, 0x0F]
    Safe s ∧ s.view .pc ≤ 4094 ∧
      (0x800F#16).toNat = s.view (.byte (s.view .pc)) * 256 + s.view (.byte (s.view .pc + 1)) ∧
      UnknownFatalWord 0x800F := by
  unfold Safe UnknownFatalWord
  decide

theorem witness_IllegalWordsFault_familyF :
    let s := bytes (boundary 0 0 0) 0 [0xF1, 0x08]
    Safe s ∧ s.view .pc ≤ 4094 ∧
      (0xF108#16).toNat = s.view (.byte (s.view .pc)) * 256 + s.view (.byte (s.view .pc + 1)) ∧
      UnknownFatalWord 0xF108 := by
  unfold Safe UnknownFatalWord
  decide

/-- A fault of the fetch (no opcode) and a fault of an instruction. -/
theorem witness_FaultEntryIsPrecise :
    (∃ t r, step (boundary 0 4095 0) = .next t ∧ t.fault = some r ∧ r.opcode = none) ∧
    ∃ t r, one (boundary 16 0x200 0) 0x2300 = .next t ∧ t.fault = some r ∧ r.opcode = some 0x2300 :=
  ⟨⟨_, _, rfl, rfl, rfl⟩, ⟨_, _, rfl, rfl, rfl⟩⟩

/-- An instruction that answers a next state with a fault latched, on a state without one. -/
def Faults (i : Instr) (s : State) : Prop := Safe s ∧ ∃ t r, exec i s = .next t ∧ t.fault = some r

theorem witness_OnlyTheListedInstructionsFault_call : Faults (.call 0x300) (boundary 16 0x200 0) :=
  ⟨rfl, _, _, rfl, rfl⟩

theorem witness_OnlyTheListedInstructionsFault_ret : Faults .ret (boundary 0 0x200 0) := ⟨rfl, _, _, rfl, rfl⟩

theorem witness_OnlyTheListedInstructionsFault_draw_memory : Faults (.drawSprite 0 1 15) (boundary 0 0x200 0xFF2) :=
  ⟨rfl, _, _, rfl, rfl⟩

theorem witness_OnlyTheListedInstructionsFault_draw_edge :
    Faults (.drawSprite 0 1 1) (regs (boundary 0 0x200 0x300) [(0, 57)]) := ⟨rfl, _, _, rfl, rfl⟩

theorem witness_OnlyTheListedInstructionsFault_bcd : Faults (.storeBcdDigits 0) (boundary 0 0x200 0xFFE) :=
  ⟨rfl, _, _, rfl, rfl⟩

theorem witness_OnlyTheListedInstructionsFault_store : Faults (.storeRegistersToMemory 15) (boundary 0 0x200 0xFF1) :=
  ⟨rfl, _, _, rfl, rfl⟩

theorem witness_OnlyTheListedInstructionsFault_load : Faults (.loadRegistersFromMemory 15) (boundary 0 0x200 0xFF1) :=
  ⟨rfl, _, _, rfl, rfl⟩

theorem witness_OnlyTheListedInstructionsFault_key : Faults (.skipIfKeyPressed 2) (regs start [(2, 16)]) :=
  ⟨rfl, _, _, rfl, rfl⟩

theorem witness_OnlyTheListedInstructionsFault_key_not : Faults (.skipIfKeyNotPressed 2) (regs start [(2, 16)]) :=
  ⟨rfl, _, _, rfl, rfl⟩

theorem witness_OnlyTheListedInstructionsFault_font : Faults (.loadFontAddress 2) (regs start [(2, 16)]) :=
  ⟨rfl, _, _, rfl, rfl⟩

/-- A completed step with a running timer, and a faulting one. -/
theorem witness_TimersDecayOncePerStep :
    (∃ t, one { start with dt := 1 } 0x0000 = .next t ∧ t.fault = none) ∧
    ∃ t, one { start with dt := 1 } 0x00EE = .next t ∧ t.fault ≠ none :=
  ⟨⟨_, rfl, rfl⟩, ⟨_, rfl, by rintro ⟨⟩⟩⟩

theorem witness_DecodeInvertsEncode : (Instr.sys 0x0E1).WellFormed ∧ (Instr.drawSprite 15 15 15).WellFormed := by decide

/-- A word of family 5 with a low nibble, and one outside families 5 and 9. -/
theorem witness_EncodeInvertsDecode :
    decodeWord 0x512F = .ok (.skipIfRegistersEqual 1 2) ∧ decodeWord 0xFF65 = .ok (.loadRegistersFromMemory 15) := by
  decide

/-- The largest `SP` and, for the second state, the largest `PC` the invariant allows. -/
theorem witness_StepKeepsTheInvariant :
    (Invariant (boundary 16 0xFFE 0) ∧ ∃ t, step (boundary 16 0xFFE 0) = .next t) ∧
    Invariant (boundary 16 0x10FE 0) ∧ ∃ t, step (boundary 16 0x10FE 0) = .next t := by
  refine ⟨⟨?_, _, rfl⟩, ?_, _, rfl⟩ <;> unfold Invariant <;> decide

theorem witness_EveryScheduleKeepsTheInvariant :
    Invariant Session.start.machine ∧
    ∃ h, Session.start.run [.key 3 true, .load [0x12, 0x00], .step, .frameAck] = .next h := by
  refine ⟨?_, _, rfl⟩
  unfold Invariant
  decide

theorem witness_StepNeverWritesKeys : ∃ t, one { start with keys := start.keys.set 5 true } 0xF50A = .next t := ⟨_, rfl⟩

/-- `REDRAW` set before SYS, which is neither of the two. -/
theorem witness_RedrawIsOnlySetAndOnlyByDrawing :
    State.reset.redraw = true ∧ (∃ t, exec (.sys 0) State.reset = .next t) ∧ Instr.sys 0 ≠ .clearScreen ∧
      ∀ x y n, Instr.sys 0 ≠ .drawSprite x y n := ⟨rfl, ⟨_, rfl⟩, by decide, by rintro x y n ⟨⟩⟩

theorem witness_OnlyTheTwoStoresWriteMemory :
    (∃ t, exec (.loadRegistersFromMemory 15) (boundary 0 0x200 0xFF0) = .next t) ∧
      ∀ x, Instr.loadRegistersFromMemory 15 ≠ .storeBcdDigits x ∧
        Instr.loadRegistersFromMemory 15 ≠ .storeRegistersToMemory x :=
  ⟨⟨_, rfl⟩, fun x => ⟨by rintro ⟨⟩, by rintro ⟨⟩⟩⟩

theorem witness_OnlyCallAndReturnTouchTheStack :
    (∃ t, exec (.jump 0x300) (boundary 16 0x200 0) = .next t) ∧ (∀ nnn, Instr.jump 0x300 ≠ .call nnn) ∧
      Instr.jump 0x300 ≠ .ret := ⟨⟨_, rfl⟩, by rintro n ⟨⟩, by decide⟩

theorem witness_OnlyThreeInstructionsWriteTheIndex :
    (∃ t, exec (.loadRegistersFromMemory 15) (boundary 0 0x200 0xFF0) = .next t) ∧
      (∀ nnn, Instr.loadRegistersFromMemory 15 ≠ .loadIndex nnn) ∧
      ∀ x, Instr.loadRegistersFromMemory 15 ≠ .addToIndex x ∧ Instr.loadRegistersFromMemory 15 ≠ .loadFontAddress x :=
  ⟨⟨_, rfl⟩, by rintro n ⟨⟩, fun x => ⟨by rintro ⟨⟩, by rintro ⟨⟩⟩⟩

/-- ADD with the last destination that is not the flag register. -/
theorem witness_OtherInstructionsIgnoreFreeValues : ¬ ConsumesFreeValue (.add 14 15) := by
  rintro (⟨x, kk, h⟩ | ⟨y, h⟩)
  · cases h
  · simp at h

theorem witness_SoundTimerIsReadByNoInstruction : ∀ x, Instr.setDelay 3 ≠ .setSound x := by rintro x ⟨⟩

theorem witness_SysHasNoEffect : (0x0E1#12 : Addr) ≠ 0x0E0 ∧ (0x0E1#12 : Addr) ≠ 0x0EE := by decide

theorem witness_CallPushesOrOverflows :
    (boundary 15 0x200 0).view .sp < 16 ∧ 16 ≤ (boundary 16 0x200 0).view .sp := by decide

theorem witness_ReturnPopsOrUnderflows :
    (boundary 1 0x200 0).view .sp = (0 : Fin 16).val + 1 ∧ (boundary 16 0x200 0).view .sp = (15 : Fin 16).val + 1 ∧
      (boundary 0 0x200 0).view .sp = 0 := by decide

theorem witness_ReturnWithoutASlotStops : 16 < (boundary 17 0x200 0).view .sp := by decide

theorem witness_ReturnUndoesCall :
    (boundary 15 0x200 0).view .sp < 16 ∧ ∃ t, exec (.call 0x300) (boundary 15 0x200 0) = .next t :=
  ⟨by decide, _, rfl⟩

/-- The last destination that is not the flag register; the same for the three statements with this hypothesis. -/
theorem witness_AddSetsCarry : (14#4 : RegIdx) ≠ 15 := by decide

theorem witness_SubtractionsSetStrictFlag : (14#4 : RegIdx) ≠ 15 := by decide

theorem witness_ShiftsMoveOneBit : (14#4 : RegIdx) ≠ 15 := by decide

theorem witness_AliasedFlagIsAFreeValue :
    Instr.subn 15 15 ∈
      [Instr.add 15 15, Instr.sub 15 15, Instr.shiftRight 15 15, Instr.subn 15 15, Instr.shiftLeft 15 15] := by
  decide

/-- Height 0 at any `I`, and the last column, row and address that fit. -/
theorem witness_DrawSpriteTogglesCells :
    (0#4 : Nibble) = 0 ∧
    let s := regs (boundary 0 0x200 0xFFF) [(0, 56), (1, 31)]
    s.view .index + (1#4).toNat - 1 ≤ 4095 ∧ s.view (.reg 0) % 64 ≤ 56 ∧ s.view (.reg 1) % 32 + (1#4).toNat ≤ 32 := by
  decide

/-- One past: the address, the column, the row. -/
theorem witness_DrawSpriteFaults :
    (15#4 : Nibble) ≠ 0 ∧ 4095 < (boundary 0 0x200 0xFF2).view .index + (15#4).toNat - 1 ∧
    (let s := regs (boundary 0 0x200 0xFFF) [(0, 57)]
     s.view .index + (1#4).toNat - 1 ≤ 4095 ∧ 56 < s.view (.reg 0) % 64) ∧
    let s := regs (boundary 0 0x200 0xFFE) [(1, 31)]
    s.view .index + (2#4).toNat - 1 ≤ 4095 ∧ 32 < s.view (.reg 1) % 32 + (2#4).toNat := by decide

/-- Glyph 0 at the origin covers cell (0, 0), here on; it does not cover cell (63, 31). -/
theorem witness_Drawn :
    let s : State := { boundary 0 0x200 0x050 with fb := Screen.toggle start.fb (0, 0) }
    SpriteCovers s Prod.mk 0 0 5 0 0 ∧ s.view (.cell 0 0) = 1 ∧ ¬ SpriteCovers s Prod.mk 0 0 5 63 31 := by
  refine ⟨⟨0, 0, by decide, by decide, rfl, by decide⟩, by decide, ?_⟩
  rintro ⟨c, r, hc, hr, hp, -⟩
  simp only [Prod.mk.injEq] at hp
  omega

/-- G12: the pixel beyond column 63 wraps to cell (0, 0). -/
theorem witness_AlternateEdgePolicies_wrap :
    SpriteCovers (bytes (boundary 0 0x200 0x300) 0x300 [0x01]) (fun cx cy => (cx % 64, cy % 32)) 57 0 1 0 0 :=
  ⟨7, 0, by decide, by decide, rfl, by decide⟩

theorem witness_AlternateEdgePolicies :
    (0#4 : Nibble) = 0 ∧ (boundary 0 0x200 0xFF1).view .index + (15#4).toNat - 1 ≤ 4095 := by decide

/-- Glyph 0 on the blank screen, as in S6. -/
theorem witness_DrawingTwiceRestoresTheScreen :
    (0#4 : RegIdx) ≠ 15 ∧ (1#4 : RegIdx) ≠ 15 ∧ Safe (boundary 0 0x200 0x050) ∧
    (∃ t, exec (.drawSprite 0 1 5) (boundary 0 0x200 0x050) = .next t ∧ Safe t) ∧
    ∀ cx cy, (boundary 0 0x200 0x050).view (.cell cx cy) = 0 := by
  refine ⟨by decide, by decide, rfl, ⟨_, rfl, rfl⟩, fun cx cy => ?_⟩
  simp [State.view, boundary, start, State.reset, bit]

/-- The last key number. -/
theorem witness_KeySkips : (regs start [(2, 15)]).view (.reg 2) < 16 := by decide

/-- The first number that is no key and no digit. -/
theorem witness_KeyAndDigitOperandsAreChecked : 15 < (regs start [(2, 16)]).view (.reg 2) := by decide

/-- Only the last key down; and no key down. -/
theorem witness_BlockWaitTakesTheLeastKeyOrRetries :
    (let s : State := { start with keys := start.keys.set 15 true }
     s.view (.key 15) = 1 ∧ ∀ j : Fin 16, j < 15 → s.view (.key j) = 0) ∧ ∀ k, start.view (.key k) = 0 := by decide

/-- The last digit. -/
theorem witness_FontAddressOfADigit : (regs start [(2, 15)]).view (.reg 2) ≤ 15 := by decide

theorem witness_BcdStoresThreeDigits :
    (boundary 0 0x200 0xFFD).mem.wf = true ∧ (boundary 0 0x200 0xFFD).view .index + 2 ≤ 4095 := by decide

theorem witness_StoreRegistersWritesARange :
    (boundary 0 0x200 0xFF0).mem.wf = true ∧ (boundary 0 0x200 0xFF0).view .index + (15#4).toNat ≤ 4095 ∧
      (15#4).toNat ≤ (15#4).toNat := by decide

theorem witness_LoadRegistersReadsARange :
    (boundary 0 0x200 0xFF0).view .index + (15#4).toNat ≤ 4095 ∧ (15#4).toNat ≤ (15#4).toNat := by decide

theorem witness_TransfersAreRangeChecked :
    4095 < (boundary 0 0x200 0xFFE).view .index + 2 ∧ 4095 < (boundary 0 0x200 0xFF1).view .index + (15#4).toNat := by
  decide

theorem witness_StoresAreSeenByTheNextFetch :
    let s := regs (boundary 0 0x200 0x208) [(0, 0x63), (1, 0x77)]
    s.mem.wf = true ∧ s.view .index + (1#4).toNat ≤ 4095 ∧ (∃ t, exec (.storeRegistersToMemory 1) s = .next t) ∧
      (1#4).toNat = (0#4).toNat + 1 ∧ (1#4).toNat ≤ (1#4).toNat :=
  ⟨by decide, by decide, ⟨_, rfl⟩, by decide, by decide⟩

/-- The longest ROM that fits, the first that does not, a session that may load no more, and moves that end loading. -/
theorem witness_RomLoadsOnceAt0x200 :
    start.mem.wf = true ∧ (List.replicate 3584 (0 : Byte)).length ≤ 3584 ∧
      3584 < (List.replicate 3585 (0 : Byte)).length ∧ (Session.mk start false).mayLoad = false ∧
      Session.start.mayLoad = true ∧
      (∃ h, Session.start.act (.load [0x12]) = .next h) ∧ ∃ h, Session.start.act .step = .next h :=
  ⟨rfl, by rw [List.length_replicate], by rw [List.length_replicate]; decide, rfl, rfl, ⟨_, rfl⟩, ⟨_, rfl⟩⟩

/-- A move of a session that may load no more, and a schedule with moves before the load. -/
theorem witness_RomLoadsOnceAt0x200_schedule :
    (∃ h, (Session.mk start false).act .frameAck = .next h) ∧
      ∃ h, Session.start.run ([.key 3 true, .frameAck] ++ .load [0x12, 0x00] :: [.step]) = .next h :=
  ⟨⟨_, rfl⟩, _, rfl⟩

/-- Load, key, load: the second load is refused (R232, D24). -/
theorem test_second_load_refused :
    Session.start.run [.load [0x12], .key 3 true, .load [0x12]] = .refused .loadNotAllowed := rfl

/-- A machine with a step, and a faulted one without. -/
theorem witness_HostTouchesOnlyItsOwn :
    (∃ t, step Session.start.machine = .next t) ∧
      ∃ r, step (Session.mk (start.raise .fetchOutOfRange none) false).machine = .fault r := ⟨⟨_, rfl⟩, _, rfl⟩

end Sys2Proof.Tests
end

section
/-! PROOFS. The family of 10_state.md: the reset state, the invariant of reachable states, and who writes the key latch,
the screen, `REDRAW`, the stack, `SP`, `I` and `ST`. What an instruction leaves alone is read off `Effect`, once for each
piece of state; `ST` needs two runs side by side, and so a commutation lemma for each shared operation. -/

namespace Sys2Proof.Machine

variable {i : Instr} {s t : State}

/-! ### Writing a range of registers changes nothing but the registers (R167) -/

section writeRegsFrom
variable (k : Nat) (bs : List Byte) (s : State)
@[simp] theorem writeRegsFrom_index : (State.writeRegsFrom k bs s).index = s.index := by rw [writeRegsFrom_eq]
@[simp] theorem writeRegsFrom_pc : (State.writeRegsFrom k bs s).pc = s.pc := by rw [writeRegsFrom_eq]
@[simp] theorem writeRegsFrom_sp : (State.writeRegsFrom k bs s).sp = s.sp := by rw [writeRegsFrom_eq]
@[simp] theorem writeRegsFrom_stack : (State.writeRegsFrom k bs s).stack = s.stack := by rw [writeRegsFrom_eq]
@[simp] theorem writeRegsFrom_mem : (State.writeRegsFrom k bs s).mem = s.mem := by rw [writeRegsFrom_eq]
@[simp] theorem writeRegsFrom_fb : (State.writeRegsFrom k bs s).fb = s.fb := by rw [writeRegsFrom_eq]
@[simp] theorem writeRegsFrom_redraw : (State.writeRegsFrom k bs s).redraw = s.redraw := by rw [writeRegsFrom_eq]
@[simp] theorem writeRegsFrom_keys : (State.writeRegsFrom k bs s).keys = s.keys := by rw [writeRegsFrom_eq]
end writeRegsFrom

/-! ### A sprite after its checked read, by the two outcomes of the read -/

/-- A sprite whose rows are read: the edge check comes next (R127, R128, R212). -/
theorem drawSprite_of_rows {policy : Config.EdgePolicy} {x y : RegIdx} {n : Nibble} {rows : List Byte}
    (h : s.readBytes (s.effectiveAddr 0) n.toNat = .ok rows) :
    State.drawSprite policy x y n s =
      if n.toNat > 0 ∧ edgeCrossed (originX (s.readReg x)) (originY (s.readReg y)) n.toNat ∧ policy = .reject then
        .error .framebufferOutOfRange
      else .ok (s.writePlot (plotCells s.fb (litCells policy (originX (s.readReg x)) (originY (s.readReg y)) rows))) := by
  rw [State.drawSprite, h]; rfl

/-- A sprite whose rows cannot be read (R127, R212). -/
theorem drawSprite_of_error {policy : Config.EdgePolicy} {x y : RegIdx} {n : Nibble} {c : Cause}
    (h : s.readBytes (s.effectiveAddr 0) n.toNat = .error c) : State.drawSprite policy x y n s = .error c := by
  rw [State.drawSprite, h]; rfl

/-! ### RETURN, by its three outcomes (R82, log 6) -/

theorem exec_ret_underflow (h : s.sp = 0) : exec .ret s = .next (s.raise .stackUnderflow (some (encode .ret))) :=
  if_pos h

theorem exec_ret_pop (h0 : s.sp ≠ 0) (h : s.sp.toNat - 1 < 16) :
    exec .ret s = .next { s.advance with sp := s.sp - 1, pc := s.stack[s.sp.toNat - 1] } :=
  (if_neg h0).trans (dif_pos h)

theorem exec_ret_noStackSlot (h : 16 < s.sp.toNat) : exec .ret s = .fault .noStackSlot := by
  have h0 : s.sp ≠ 0 := by rintro e; simp [e] at h
  exact (if_neg h0).trans (dif_neg (by omega))

/-! ### The invariant: one lemma for each of its four parts -/

/-- A fetched instruction comes from an address in range (R39). -/
theorem pc_le_of_fetchInstr (h : s.fetchInstr = .ok i) : s.pc.toNat ≤ 4094 := by
  rcases fetchInstr_cases s with ⟨-, he⟩ | ⟨w, hw, -⟩
  · cases he.symm.trans h
  · exact pc_le_of_fetch hw

/-- After a fetch in range the advance does not wrap (R14). -/
theorem advanced_pc_le (h : s.pc.toNat ≤ 4094) : (s.pc + 2).toNat ≤ 4096 := by
  rw [pc_add_two_toNat, State.view]; omega

/-- A zero-extended address is below 4096 (R58). -/
theorem zext16_lt (nnn : Addr) : (zext16 nnn).toNat < 4096 := by simp [zext16]; omega

/-- Only a checked store writes memory, and it keeps the canonical form (R38, R42). -/
theorem Effect.mem_wf (h : Effect i s t) (hm : s.mem.wf = true) : t.mem.wf = true := by
  cases h with
  | store a bs hb => exact Memory.wf_writeAll hm hb
  | loads => rwa [writeRegsFrom_mem]
  | _ => exact hm

/-- CALL counts up from below 16 and RETURN counts down from above 0 (R15, R28). -/
theorem Effect.sp_le (h : Effect i s t) (hs : s.sp.toNat ≤ 16) : t.sp.toNat ≤ 16 := by
  cases h with
  | call nnn _ hlt => bv_omega
  | ret _ h0 hlt =>
    have : 1 ≤ s.sp := by bv_omega
    rw [BitVec.toNat_sub_of_le this]
    omega
  | loads => rwa [writeRegsFrom_sp]
  | _ => exact hs

/-- `PC` moves on by at most 4, to a jump's target, or to a return address (R14). -/
theorem Effect.pc_le (h : Effect i s t) (hpc : s.pc.toNat ≤ 4094) (hk : ∀ k : Fin 16, s.stack[k].toNat ≤ 4096) :
    t.pc.toNat ≤ 0x10FE := by
  have hadv := advanced_pc_le hpc
  cases h with
  | raise => rw [raise_pc]; omega
  | pc w hw =>
    rw [jumpTo_pc]
    rcases hw with hw | rfl | hw
    · exact hw
    · omega
    · have := hw hpc; omega
  | call nnn => have := zext16_lt nnn; dsimp only; omega
  | ret _ _ hlt => exact (hk ⟨_, hlt⟩).trans (by decide)
  | loads => rw [writeRegsFrom_pc, advance_pc]; omega
  | _ => exact hadv.trans (by decide)

/-- Only CALL writes the stack, and it pushes the advanced `PC` (R16, R81). -/
theorem Effect.stack_le (h : Effect i s t) (hpc : s.pc.toNat ≤ 4094) (hk : ∀ k : Fin 16, s.stack[k].toNat ≤ 4096) :
    ∀ k : Fin 16, t.stack[k].toNat ≤ 4096 := by
  cases h with
  | call nnn _ hlt =>
    intro k
    simp only [Fin.getElem_fin, Vector.getElem_set]
    split
    · exact advanced_pc_le hpc
    · exact hk k
  | loads => rwa [writeRegsFrom_stack]
  | _ => exact hk

/-- An instruction fetched in range keeps the invariant. -/
theorem Effect.invariant (h : Effect i s t) (hpc : s.pc.toNat ≤ 4094) (hs : Invariant s) : Invariant t := by
  obtain ⟨hmem, hsp, -, hstack⟩ := hs
  exact ⟨h.mem_wf hmem, h.sp_le hsp, h.pc_le hpc hstack, h.stack_le hpc hstack⟩

/-- Settles O15, by the shapes of what an instruction can do: a latched fault and the timer decay touch nothing that the
invariant speaks of, and an instruction that runs was fetched from at most 4094. -/
theorem stepKeepsTheInvariant : Obligations.StepKeepsTheInvariant := by
  intro s t hs hstep
  obtain ⟨-, ⟨c, w, -, rfl⟩ | ⟨i, u, hi, hu, rfl⟩⟩ := step_cases hstep
  · exact hs
  · have hinv : Invariant u := (exec_cases hu).invariant (pc_le_of_fetchInstr hi) hs
    split <;> exact hinv

/-! ### Who writes what -/

/-- No instruction writes the key latch (R22). -/
theorem Effect.keys_eq (h : Effect i s t) : t.keys = s.keys := by
  cases h with
  | loads => exact writeRegsFrom_keys ..
  | _ => rfl

/-- Settles O17: neither a latched fault, nor an instruction, nor the timer decay writes the latch. -/
theorem stepNeverWritesKeys : Obligations.StepNeverWritesKeys := by
  intro s t hstep
  obtain ⟨-, ⟨c, w, -, rfl⟩ | ⟨i, u, -, hu, rfl⟩⟩ := step_cases hstep
  · rfl
  · have hkeys : u.keys = s.keys := (exec_cases hu).keys_eq
    split <;> exact hkeys

/-- No instruction clears `REDRAW` (R21). -/
theorem Effect.redraw_of_redraw (h : Effect i s t) (hr : s.redraw = true) : t.redraw = true := by
  cases h with
  | clear => rfl
  | plot p => rw [writePlot_redraw, advance_redraw, hr, Bool.true_or]
  | loads => rwa [writeRegsFrom_redraw]
  | _ => exact hr

/-- Only CLEAR-SCREEN and DRAW-SPRITE touch `REDRAW` or the screen (R20, R129). -/
theorem Effect.screen_eq (h : Effect i s t) (hc : i ≠ .clearScreen) (hd : ∀ x y n, i ≠ .drawSprite x y n) :
    t.redraw = s.redraw ∧ t.fb = s.fb := by
  cases h with
  | clear hi => exact absurd hi hc
  | plot p hi => obtain ⟨x, y, n, hi⟩ := hi; exact absurd hi (hd x y n)
  | loads => exact ⟨writeRegsFrom_redraw .., writeRegsFrom_fb ..⟩
  | _ => exact ⟨rfl, rfl⟩

/-- Settles O18, from the two screen lemmas for what an instruction can do. -/
theorem redrawIsOnlySetAndOnlyByDrawing : Obligations.RedrawIsOnlySetAndOnlyByDrawing :=
  fun _ _ _ h => ⟨(exec_cases h).redraw_of_redraw, (exec_cases h).screen_eq⟩

/-- Only CALL writes the stack (R16). -/
theorem Effect.stack_eq (h : Effect i s t) (hc : ∀ nnn, i ≠ .call nnn) : t.stack = s.stack := by
  cases h with
  | call nnn hi => exact absurd hi (hc nnn)
  | loads => exact writeRegsFrom_stack ..
  | _ => rfl

/-- Only CALL and RETURN touch `SP` (R15). -/
theorem Effect.sp_eq (h : Effect i s t) (hc : ∀ nnn, i ≠ .call nnn) (hr : i ≠ .ret) : t.sp = s.sp := by
  cases h with
  | call nnn hi => exact absurd hi (hc nnn)
  | ret hi => exact absurd hi hr
  | loads => exact writeRegsFrom_sp ..
  | _ => rfl

/-- Settles O20, from the two stack lemmas for what an instruction can do. -/
theorem onlyCallAndReturnTouchTheStack : Obligations.OnlyCallAndReturnTouchTheStack :=
  fun _ _ _ h => ⟨(exec_cases h).stack_eq, (exec_cases h).sp_eq⟩

/-- Only LOAD-INDEX, ADD-TO-INDEX and LOAD-FONT-ADDRESS write `I` (R13). -/
theorem Effect.index_eq (h : Effect i s t) (hl : ∀ nnn, i ≠ .loadIndex nnn)
    (ha : ∀ x, i ≠ .addToIndex x ∧ i ≠ .loadFontAddress x) : t.index = s.index := by
  cases h with
  | index w hi =>
    rcases hi with ⟨nnn, hi⟩ | ⟨x, hi | hi⟩
    · exact absurd hi (hl nnn)
    · exact absurd hi (ha x).1
    · exact absurd hi (ha x).2
  | loads => exact writeRegsFrom_index ..
  | _ => rfl

/-- Settles O21, from the lemma on `I` for what an instruction can do. -/
theorem onlyThreeInstructionsWriteTheIndex : Obligations.OnlyThreeInstructionsWriteTheIndex :=
  fun _ _ _ h hl ha => (exec_cases h).index_eq hl ha

/-! ### No instruction but SET-SOUND reads `ST` (R18)

Every shared operation commutes with setting `ST`; an instruction is one of them after the advance. -/

section setSoundTimer
variable (s : State) (b : Byte)

theorem skipIf_setSoundTimer (c : Bool) : (s.setSoundTimer b).skipIf c = (s.skipIf c).setSoundTimer b := by
  cases c <;> rfl

theorem writeResultFlag_setSoundTimer (x : RegIdx) (r f : Byte) :
    (s.setSoundTimer b).writeResultFlag x r f = (s.writeResultFlag x r f).setSoundTimer b := by
  by_cases hx : x = vF
  · subst hx; rw [writeResultFlag_of_eq, writeResultFlag_of_eq]; rfl
  · rw [writeResultFlag_of_ne _ hx, writeResultFlag_of_ne _ hx]; rfl

theorem writeRegsFrom_setSoundTimer (k : Nat) (bs : List Byte) :
    State.writeRegsFrom k bs (s.setSoundTimer b) = (State.writeRegsFrom k bs s).setSoundTimer b := by
  induction bs generalizing k s with
  | nil => rfl
  | cons c bs ih => exact ih (s.writeReg (BitVec.ofNat 4 k) c) (k + 1)

theorem writeBytes_setSoundTimer (a : Nat) (bs : List Byte) :
    (s.setSoundTimer b).writeBytes a bs = (s.writeBytes a bs).map (·.setSoundTimer b) := by
  unfold State.writeBytes
  split <;> rfl

theorem readBytes_setSoundTimer (a n : Nat) : (s.setSoundTimer b).readBytes a n = s.readBytes a n := rfl

theorem effectiveAddr_setSoundTimer (k : Nat) : (s.setSoundTimer b).effectiveAddr k = s.effectiveAddr k := rfl

theorem advance_setSoundTimer : (s.setSoundTimer b).advance = s.advance.setSoundTimer b := rfl

theorem leastKey_setSoundTimer : (s.setSoundTimer b).leastKey = s.leastKey := rfl

theorem push_setSoundTimer : (s.setSoundTimer b).push = s.push.map (·.setSoundTimer b) := by
  by_cases hs : s.sp.toNat < 16
  · rw [push_ok hs, push_ok (s := s.setSoundTimer b) hs]; rfl
  · have hs := Nat.le_of_not_lt hs
    rw [push_error hs, push_error (s := s.setSoundTimer b) hs]; rfl

theorem drawSprite_setSoundTimer (policy : Config.EdgePolicy) (x y : RegIdx) (n : Nibble) :
    State.drawSprite policy x y n (s.setSoundTimer b) =
      (State.drawSprite policy x y n s).map (·.setSoundTimer b) := by
  cases h : s.readBytes (s.effectiveAddr 0) n.toNat with
  | error c => rw [drawSprite_of_error h, drawSprite_of_error (s := s.setSoundTimer b) h]; rfl
  | ok rows =>
    rw [drawSprite_of_rows h, drawSprite_of_rows (s := s.setSoundTimer b) h]
    symm
    exact apply_ite (Except.map (State.setSoundTimer · b)) ..

/-- An instruction that may raise: the fault record has no `ST` in it, and discards an effect that ignores `ST`. -/
theorem mayRaise_setSoundTimer {effect : State → Except Cause State} (w : Word)
    (he : effect (s.advance.setSoundTimer b) = (effect s.advance).map (·.setSoundTimer b)) :
    (s.setSoundTimer b).mayRaise w effect = onNext (·.setSoundTimer b) (s.mayRaise w effect) := by
  have he : effect (s.setSoundTimer b).advance = _ := he
  cases h : effect s.advance with
  | ok t => rw [mayRaise_of_ok h, mayRaise_of_ok (he.trans (by rw [h]; rfl))]; rfl
  | error c => rw [mayRaise_of_error h, mayRaise_of_error (he.trans (by rw [h]; rfl))]; rfl

theorem exec_ret_setSoundTimer : exec .ret (s.setSoundTimer b) = onNext (·.setSoundTimer b) (exec .ret s) := by
  by_cases h0 : s.sp = 0
  · rw [exec_ret_underflow h0, exec_ret_underflow (s := s.setSoundTimer b) h0]; rfl
  by_cases h : s.sp.toNat - 1 < 16
  · rw [exec_ret_pop h0 h, exec_ret_pop (s := s.setSoundTimer b) h0 h]; rfl
  · have h : 16 < s.sp.toNat := by omega
    rw [exec_ret_noStackSlot h, exec_ret_noStackSlot (s := s.setSoundTimer b) h]; rfl

/-- A key skip (R140): its operand and the latch are read, `ST` is not. -/
theorem keySkip_setSoundTimer (x : RegIdx) (test : Bool → Bool) (w : Word) :
    (s.setSoundTimer b).mayRaise w (fun u => do
        let k ← keyOperand (u.readReg x)
        return u.skipIf (test u.keys[k])) =
      onNext (·.setSoundTimer b) (s.mayRaise w (fun u => do
        let k ← keyOperand (u.readReg x)
        return u.skipIf (test u.keys[k]))) := by
  refine mayRaise_setSoundTimer s b w ?_
  rw [setSoundTimer_readReg]
  cases keyOperand (s.advance.readReg x) with
  | error c => rfl
  | ok k => exact congrArg Except.ok (skipIf_setSoundTimer ..)

/-- Every instruction but SET-SOUND commutes with setting `ST`. -/
theorem exec_setSoundTimer (i : Instr) (hi : ∀ x, i ≠ .setSound x) :
    exec i (s.setSoundTimer b) = onNext (·.setSoundTimer b) (exec i s) := by
  cases i with
  | setSound x => exact absurd rfl (hi x)
  | ret => exact exec_ret_setSoundTimer s b
  | skipIfEqualByte | skipIfNotEqualByte | skipIfRegistersEqual | skipIfRegistersNotEqual =>
    exact congrArg Host.Outcome.next (skipIf_setSoundTimer s.advance b _)
  | add | sub | subn | shiftRight | shiftLeft =>
    exact congrArg Host.Outcome.next (writeResultFlag_setSoundTimer s.advance b _ _ _)
  | blockWaitForKey x =>
    simp only [exec, execBlockWaitForKey, runs_eq, onNext]
    rw [advance_setSoundTimer, leastKey_setSoundTimer]
    cases s.advance.leastKey <;> rfl
  | call nnn =>
    simp only [exec, execCall]
    refine mayRaise_setSoundTimer s b _ ?_
    rw [push_setSoundTimer]
    cases s.advance.push <;> rfl
  | drawSprite =>
    simp only [exec, execDrawSprite]
    exact mayRaise_setSoundTimer s b _ (drawSprite_setSoundTimer ..)
  | skipIfKeyPressed x => exact keySkip_setSoundTimer s b x id _
  | skipIfKeyNotPressed x => exact keySkip_setSoundTimer s b x (!·) _
  | loadFontAddress x =>
    simp only [exec, execLoadFontAddress]
    refine mayRaise_setSoundTimer s b _ ?_
    rw [setSoundTimer_readReg]
    cases glyphOperand (s.advance.readReg x) <;> rfl
  | storeBcdDigits | storeRegistersToMemory =>
    simp only [exec, execStoreBcdDigits, execStoreRegistersToMemory]
    exact mayRaise_setSoundTimer s b _ (writeBytes_setSoundTimer s.advance b _ _)
  | loadRegistersFromMemory x =>
    simp only [exec, execLoadRegistersFromMemory]
    refine mayRaise_setSoundTimer s b _ ?_
    simp only [effectiveAddr_setSoundTimer, readBytes_setSoundTimer]
    cases s.advance.readBytes (s.advance.effectiveAddr 0) (x.toNat + 1) with
    | error c => rfl
    | ok bytes => exact congrArg Except.ok (writeRegsFrom_setSoundTimer ..)
  | _ => rfl

end setSoundTimer

/-- Settles O23: replacing `ST` by hand is setting it. -/
theorem soundTimerIsReadByNoInstruction : Obligations.SoundTimerIsReadByNoInstruction :=
  fun i s b hi => exec_setSoundTimer s b i hi

/-! ### The reset state (R25, R230) -/

/-- The font lies at 0x050 (R37, R231). -/
theorem resetByte_font (k : Nat) : resetByte (0x050 + k) = fontData.getD k 0 := by
  rw [resetByte, if_pos (Nat.le_add_right ..), Config.fontBase, Nat.add_sub_cancel_left]

/-- Outside the 80 bytes of the font, memory is 0 (R19). -/
theorem resetByte_outside {a : Nat} (h : a < 0x050 ∨ 0x09F < a) : resetByte a = 0 := by
  rcases h with h | h
  · exact if_neg (Nat.not_le_of_lt h)
  · obtain ⟨k, rfl⟩ := Nat.exists_eq_add_of_le h
    rw [show 0x09F + 1 + k = 0x050 + (80 + k) by omega, resetByte_font]
    exact List.getD_eq_default _ _ (Nat.le_add_right 80 k)

theorem view_reset_byte (a : Nat) : State.reset.view (.byte a) = if a ≤ 4095 then (resetByte a).toNat else 0 := rfl

theorem view_reset_reg (x : RegIdx) : State.reset.view (.reg x) = 0 := by
  simp [State.view, State.readReg, State.reset]

theorem view_reset_stack (k : Fin 16) : State.reset.view (.stack k) = 0 := by simp [State.view, State.reset]

theorem view_reset_cell (x : Fin 64) (y : Fin 32) : State.reset.view (.cell x y) = 0 := by
  simp [State.view, State.reset, bit]

theorem view_reset_key (k : Fin 16) : State.reset.view (.key k) = 0 := by simp [State.view, State.reset, bit]

/-- Settles O1: the arrays hold one value throughout, and a byte reads as its reset contents because nothing is
listed. -/
theorem resetLeavesTheConstructedState : Obligations.ResetLeavesTheConstructedState := by
  have hzero (a : Nat) (ha : a < 0x050 ∨ 0x09F < a) : State.reset.view (.byte a) = 0 := by
    rw [view_reset_byte, resetByte_outside ha]; exact ite_self 0
  have hfont (k : Nat) (hk : k < 80) : State.reset.view (.byte (0x050 + k)) = (fontData.getD k 0).toNat := by
    rw [view_reset_byte, if_pos (by omega), resetByte_font]
  exact ⟨view_reset_reg, rfl, rfl, rfl, view_reset_stack, rfl, rfl, hzero, rfl, hfont, view_reset_cell, rfl,
    view_reset_key, rfl⟩

/-- Settles O14: memory lists nothing, `SP` is 0, `PC` is 0x200, and every return address is 0. -/
theorem invariantHoldsAtReset : Obligations.InvariantHoldsAtReset :=
  ⟨rfl, by decide, by decide, fun k => (view_reset_stack k).trans_le (Nat.zero_le _)⟩

/-- Settles O28: the slot below such an `SP` does not exist (log 6). -/
theorem returnWithoutASlotStops : Obligations.ReturnWithoutASlotStops :=
  fun _ h => exec_ret_noStackSlot h

end Sys2Proof.Machine
end

section
/-! PROOFS. The family of 20_memory.md: who writes memory, the fetch past its end, the transfers past its end, and the
fetch of stored bytes. What a fault leaves alone is `State.raise`; what a bulk store leaves in memory is read off the
laws of `Memory.writeAll`. -/

namespace Sys2Proof.Machine

variable {i : Instr} {s t : State} {x : RegIdx}

/-! ### Who writes memory (R42) -/

/-- Only STORE-BCD-DIGITS and STORE-REGISTERS-TO-MEMORY write memory (R42). -/
theorem Effect.mem_eq (h : Effect i s t) (hi : ∀ x, i ≠ .storeBcdDigits x ∧ i ≠ .storeRegistersToMemory x) :
    t.mem = s.mem := by
  cases h with
  | store a bs _ hst =>
    obtain ⟨x, hx | hx⟩ := hst
    · exact absurd hx (hi x).1
    · exact absurd hx (hi x).2
  | loads => exact writeRegsFrom_mem ..
  | _ => rfl

/-- Settles O19, from the memory lemma for what an instruction can do. -/
theorem onlyTheTwoStoresWriteMemory : Obligations.OnlyTheTwoStoresWriteMemory :=
  fun _ _ _ h hi => (exec_cases h).mem_eq hi

/-! ### The fetch past the end (R39, R201) -/

/-- A failed fetch gives no instruction and no opcode (R201). -/
theorem fetchInstr_of_fetch_none (h : s.fetch = none) : s.fetchInstr = .error (.fetchOutOfRange, none) := by
  rcases fetchInstr_cases s with ⟨-, he⟩ | ⟨w, hw, -⟩
  · exact he
  · cases h.symm.trans hw

/-- From a state with no fault, an error of fetch or decode is latched (R201 to R203). -/
theorem step_of_fetchInstr_error {c : Cause} {w : Option Word} (hs : Safe s) (h : s.fetchInstr = .error (c, w)) :
    step s = .next (s.raise c w) := by
  unfold Safe at hs
  rw [step, hs, h]

/-- Settles O5: the fetch fails, and its fault is latched. -/
theorem fetchPastTheEndFaults : Obligations.FetchPastTheEndFaults :=
  fun _ hs hpc => step_of_fetchInstr_error hs (fetchInstr_of_fetch_none (fetch_eq_none hpc))

/-! ### Transfers past the end (R38, R160, R206) -/

theorem exec_storeBcdDigits_error (h : 4095 < s.view .index + 2) :
    exec (.storeBcdDigits x) s = .next (s.raise .memoryOutOfRange (some (encode (.storeBcdDigits x)))) := by
  rw [exec, execStoreBcdDigits]
  exact mayRaise_of_error (writeBytes_error (Nat.succ_pos _) h)

theorem exec_storeRegistersToMemory_error (h : 4095 < s.view .index + x.toNat) :
    exec (.storeRegistersToMemory x) s =
      .next (s.raise .memoryOutOfRange (some (encode (.storeRegistersToMemory x)))) := by
  have hlen := readRegsUpTo_length (s := s.advance) x
  rw [exec, execStoreRegistersToMemory]
  exact mayRaise_of_error (writeBytes_error (by omega) (by rw [hlen]; exact h))

theorem exec_loadRegistersFromMemory_error (h : 4095 < s.view .index + x.toNat) :
    exec (.loadRegistersFromMemory x) s =
      .next (s.raise .memoryOutOfRange (some (encode (.loadRegistersFromMemory x)))) := by
  have hread : s.advance.readBytes (s.advance.effectiveAddr 0) (x.toNat + 1) = .error .memoryOutOfRange :=
    readBytes_error (Nat.succ_pos _) h
  rw [exec, execLoadRegistersFromMemory]
  exact mayRaise_of_error (by rw [hread]; rfl)

/-- Settles O56: each of the three checks its highest address first, and a failed check discards the step. -/
theorem transfersAreRangeChecked : Obligations.TransfersAreRangeChecked :=
  fun _ _ => ⟨exec_storeBcdDigits_error, exec_storeRegistersToMemory_error, exec_loadRegistersFromMemory_error⟩

/-! ### The fetch of stored bytes (R40, R47) -/

/-- A bulk store in range changes memory and `PC` (R166). -/
theorem exec_storeRegistersToMemory_ok (h : s.view .index + x.toNat ≤ 4095) :
    exec (.storeRegistersToMemory x) s =
      .next { s.advance with mem := s.mem.writeAll (s.view .index) (s.readRegsUpTo x) } := by
  have hlen := readRegsUpTo_length (s := s.advance) x
  rw [exec, execStoreRegistersToMemory]
  exact mayRaise_of_ok (writeBytes_ok (.inr (by rw [hlen]; exact Nat.succ_le_succ h)))

/-- Byte `k` of a bulk store is `V[k]` (R166). -/
theorem readRegsUpTo_getElem (s : State) {x k : RegIdx} (h : k.toNat < (s.readRegsUpTo x).length) :
    (s.readRegsUpTo x)[k.toNat] = s.readReg k := by
  simp [State.readRegsUpTo]

/-- After a bulk store in range, address `I + k` reads `V[k]` (R43, R166). -/
theorem read_storedRegs {m : Memory} {a : Nat} {k : RegIdx} (s : State) (hm : m.wf = true) (ha : a + x.toNat ≤ 4095)
    (hk : k.toNat ≤ x.toNat) : (m.writeAll a (s.readRegsUpTo x)).read (a + k.toNat) = s.readReg k := by
  have hlen := readRegsUpTo_length (s := s) x
  rw [Memory.read_writeAll_inside hm (by omega) (by omega), readRegsUpTo_getElem]

/-- Settles O57: the fetched word is made of the two stored bytes, and the store left `V[k]` and `V[k + 1]` there. -/
theorem storesAreSeenByTheNextFetch : Obligations.StoresAreSeenByTheNextFetch := by
  intro x k j s t hm hx hexec hj hjx
  cases (exec_storeRegistersToMemory_ok hx).symm.trans hexec
  have hpc : (BitVec.ofNat 16 (s.view .index + k.toNat)).toNat = s.view .index + k.toNat := by
    rw [BitVec.toNat_ofNat, Nat.mod_eq_of_lt (by omega)]
  refine ⟨_, fetch_eq_some (by rw [hpc]; omega), ?_⟩
  rw [wordOfBytes_toNat, hpc, Nat.add_assoc, ← hj, read_storedRegs s hm hx (by omega), read_storedRegs s hm hx hjx]
  rfl

end Sys2Proof.Machine
end

section
/-! PROOFS. The family of 30_encoding.md: decoding and encoding are inverse, the decoder's errors are the illegal words,
and an illegal word at `PC` latches its class of error. `Decoded` says once everything `decodeWord` can answer. -/

namespace Sys2Proof.Machine

variable {i : Instr} {w : Word} {s : State}

/-! ### Decoding an opcode (R59, R60) -/

/-- SYS covers every `0nnn` but the two constants (R64). -/
theorem wellFormed_sys {nnn : Addr} : (Instr.sys nnn).WellFormed ↔ nnn ≠ 0x0E0 ∧ nnn ≠ 0x0EE := by
  simp [Instr.WellFormed, Instr.wellFormed]

/-- An opcode of family 8 goes to that family's decoder (R59). -/
theorem decodeWord_family8 (x y n : Nibble) :
    decodeWord (0x8#4 ++ x ++ y ++ n) = decodeFamily8 (0x8#4 ++ x ++ y ++ n) := by
  rw [decodeWord_of_family (by rw [opField_XYN]; decide), decodeFamily, opField_XYN]; rfl

/-- An opcode of family E goes to that family's decoder (R59). -/
theorem decodeWord_familyE (x : Nibble) (kk : Byte) :
    decodeWord (0xE#4 ++ x ++ kk) = decodeFamilyE (0xE#4 ++ x ++ kk) := by
  rw [decodeWord_of_family (by rw [opField_XKK]; decide), decodeFamily, opField_XKK]; rfl

/-- An opcode of family F goes to that family's decoder (R59). -/
theorem decodeWord_familyF (x : Nibble) (kk : Byte) :
    decodeWord (0xF#4 ++ x ++ kk) = decodeFamilyF (0xF#4 ++ x ++ kk) := by
  rw [decodeWord_of_family (by rw [opField_XKK]; decide), decodeFamily, opField_XKK]; rfl

/-- The opcode of a well-formed instruction decodes to it, by the shape of its pattern in R60. -/
theorem decodeWord_encode (h : i.WellFormed) : decodeWord (encode i) = .ok i := by
  cases i with
  | clearScreen | ret => rfl
  | sys nnn =>
    obtain ⟨hcls, hret⟩ := wellFormed_sys.1 h
    exact decodeWord_sys hcls hret
  | jump | call | loadIndex | jumpWithOffset =>
    rw [encode, decodeWord_of_family (by rw [opField_NNN]; decide), decodeFamily, opField_NNN, nnnField_NNN]; rfl
  | skipIfEqualByte | skipIfNotEqualByte | loadByte | addByte | randomAndMask =>
    rw [encode, decodeWord_of_family (by rw [opField_XKK]; decide), decodeFamily, opField_XKK, xField_XKK, kkField_XKK]
    rfl
  | skipIfRegistersEqual | skipIfRegistersNotEqual | drawSprite =>
    rw [encode, decodeWord_of_family (by rw [opField_XYN]; decide), decodeFamily, opField_XYN, xField_XYN, yField_XYN,
      nField_XYN]
    rfl
  | load | or | and | xor | add | sub | shiftRight | subn | shiftLeft =>
    rw [encode, decodeWord_family8, decodeFamily8, xField_XYN, yField_XYN, nField_XYN]; rfl
  | skipIfKeyPressed | skipIfKeyNotPressed =>
    rw [encode, decodeWord_familyE, decodeFamilyE, xField_XKK, kkField_XKK]; rfl
  | loadDelay | blockWaitForKey | setDelay | setSound | addToIndex | loadFontAddress | storeBcdDigits
  | storeRegistersToMemory | loadRegistersFromMemory =>
    rw [encode, decodeWord_familyF, decodeFamilyF, xField_XKK, kkField_XKK]; rfl

/-- The two bytes of a word that decodes, in address order, decode to its instruction with no byte left (R40). -/
theorem decode_hi_lo (h : decodeWord w = .ok i) : decode [hiByte w, loByte w] = .ok (i, []) := by
  rw [decode, wordOfBytes_hi_lo, h]

/-- Settles O10: by the shape of the opcode, and the bytes by the word. -/
theorem decodeInvertsEncode : Obligations.DecodeInvertsEncode :=
  fun _ h => ⟨decodeWord_encode h, decode_hi_lo (decodeWord_encode h)⟩

/-- Settles O13 by running the decoder. -/
theorem documentWordsDecode : Obligations.DocumentWordsDecode :=
  ⟨rfl, rfl, rfl, rfl, rfl, rfl, rfl, rfl, rfl, rfl⟩

/-! ### Everything the decoder can answer (R59, R61) -/

/-- The word an instruction decoded from `w` assembles to: families 5 and 9 lose their low nibble (R63, R67, D3). -/
def reassembled (w : Word) : Word :=
  if opField w = 0x5 ∨ opField w = 0x9 then opField w ++ xField w ++ yField w ++ 0x0#4 else w

/-- EVERYTHING `decodeWord` CAN ANSWER for the word `w`: an instruction for a legal word, or the error of its class. -/
inductive Decoded (w : Word) : Except DecodeError Instr → Prop where
  | ok (i : Instr) (hkey : ¬ UnknownKeyWord w) (hfatal : ¬ UnknownFatalWord w) (hwf : i.WellFormed)
      (henc : encode i = reassembled w) : Decoded w (.ok i)
  | recoverable (h : UnknownKeyWord w) : Decoded w (.error (.recoverable w))
  | fatal (h : UnknownFatalWord w) : Decoded w (.error (.fatal w))

theorem reassembled_of_ne (h : opField w ≠ 0x5 ∧ opField w ≠ 0x9) : reassembled w = w :=
  if_neg (not_or.2 h)

theorem reassembled_of_eq (h : opField w = 0x5 ∨ opField w = 0x9) :
    reassembled w = opField w ++ xField w ++ yField w ++ 0x0#4 := if_pos h

/-- Only families 8, E and F have illegal words (R61). -/
theorem Decoded.ok_of_family (h : opField w ∉ [0x8#4, 0xE#4, 0xF#4]) (hwf : i.WellFormed)
    (henc : encode i = reassembled w) : Decoded w (.ok i) := by
  simp only [List.mem_cons, List.not_mem_nil, or_false, not_or] at h
  obtain ⟨h8, hE, hF⟩ := h
  exact .ok i (fun hk => hE hk.1) (fun hf => hf.elim (h8 ·.1) (hF ·.1)) hwf henc

/-- Outside the five families with a rule of their own, the opcode is the word. -/
theorem Decoded.ok_of_encode (h : opField w ∉ [0x5#4, 0x8#4, 0x9#4, 0xE#4, 0xF#4]) (hwf : i.WellFormed)
    (henc : encode i = w) : Decoded w (.ok i) := by
  simp only [List.mem_cons, List.not_mem_nil, or_false, not_or] at h
  obtain ⟨h5, h8, h9, hE, hF⟩ := h
  exact .ok_of_family (by simp [h8, hE, hF]) hwf (henc.trans (reassembled_of_ne ⟨h5, h9⟩).symm)

/-- An operation of family 8, for a sub-opcode outside the seven without one (GK1). -/
theorem Decoded.ok_of_family8 (h : opField w = 0x8#4)
    (hn : nField w ∉ [0x8#4, 0x9#4, 0xA#4, 0xB#4, 0xC#4, 0xD#4, 0xF#4]) (hwf : i.WellFormed) (henc : encode i = w) :
    Decoded w (.ok i) := by
  refine .ok i ?_ ?_ hwf (henc.trans (reassembled_of_ne (by rw [h]; decide)).symm)
  · simp [UnknownKeyWord, h]
  · rintro (⟨-, hu⟩ | ⟨hF, -⟩)
    · exact hn hu
    · exact absurd (h.symm.trans hF) (by decide)

/-- A key form of family E (R59). -/
theorem Decoded.ok_of_familyE (h : opField w = 0xE#4) (hk : kkField w = 0x9E ∨ kkField w = 0xA1) (hwf : i.WellFormed)
    (henc : encode i = w) : Decoded w (.ok i) := by
  refine .ok i ?_ ?_ hwf (henc.trans (reassembled_of_ne (by rw [h]; decide)).symm)
  · exact fun hu => hk.elim hu.2.1 hu.2.2
  · simp [UnknownFatalWord, h]

/-- An operation of family F, for one of the nine low bytes that have one (GK2). -/
theorem Decoded.ok_of_familyF (h : opField w = 0xF#4)
    (hk : kkField w ∈ [0x07#8, 0x0A#8, 0x15#8, 0x18#8, 0x1E#8, 0x29#8, 0x33#8, 0x55#8, 0x65#8]) (hwf : i.WellFormed)
    (henc : encode i = w) : Decoded w (.ok i) := by
  refine .ok i ?_ ?_ hwf (henc.trans (reassembled_of_ne (by rw [h]; decide)).symm)
  · simp [UnknownKeyWord, h]
  · rintro (⟨h8, -⟩ | ⟨-, hu⟩)
    · exact absurd (h.symm.trans h8) (by decide)
    · exact hu hk

/-- The seven sub-opcodes without an operation are those other than the nine (R113, GK1). -/
theorem mem_unknownSubops (n : Nibble) : n ∉ [0x0#4, 0x1#4, 0x2#4, 0x3#4, 0x4#4, 0x5#4, 0x6#4, 0x7#4, 0xE#4] →
    n ∈ [0x8#4, 0x9#4, 0xA#4, 0xB#4, 0xC#4, 0xD#4, 0xF#4] := by
  revert n; decide

/-- Everything family 8 can answer (R59, R113). -/
theorem decodeFamily8_cases (h : opField w = 0x8#4) : Decoded w (decodeFamily8 w) := by
  unfold decodeFamily8
  split
  case h_10 => exact .fatal (.inl ⟨h, mem_unknownSubops _ (by simp_all)⟩)
  all_goals
    rename_i hn
    exact .ok_of_family8 h (by rw [hn]; decide) rfl (by rw [encode, ← h, ← hn, append_op_x_y_n])

/-- Everything family E can answer (R59, R144). -/
theorem decodeFamilyE_cases (h : opField w = 0xE#4) : Decoded w (decodeFamilyE w) := by
  unfold decodeFamilyE
  split
  next hk => exact .ok_of_familyE h (.inl hk) rfl (by rw [encode, ← h, ← hk, append_op_x_kk])
  next hk => exact .ok_of_familyE h (.inr hk) rfl (by rw [encode, ← h, ← hk, append_op_x_kk])
  next h9E hA1 => exact .recoverable ⟨h, h9E, hA1⟩

/-- Everything family F can answer (R59, R168). -/
theorem decodeFamilyF_cases (h : opField w = 0xF#4) : Decoded w (decodeFamilyF w) := by
  unfold decodeFamilyF
  split
  case h_10 => exact .fatal (.inr ⟨h, by simp_all⟩)
  all_goals
    rename_i hk
    exact .ok_of_familyF h (by rw [hk]; decide) rfl (by rw [encode, ← h, ← hk, append_op_x_kk])

/-- The family that none of the other fifteen arms takes is F (R59). -/
theorem eq_F_of_notMem (p : Nibble) : p ∉ [0x0#4, 0x1#4, 0x2#4, 0x3#4, 0x4#4, 0x5#4, 0x6#4, 0x7#4, 0x8#4, 0x9#4,
    0xA#4, 0xB#4, 0xC#4, 0xD#4, 0xE#4] → p = 0xF#4 := by
  revert p; decide

/-- Everything the family decoder can answer for a word that is neither constant (R59, R64). -/
theorem decodeFamily_cases (hcls : w ≠ 0x00E0) (hret : w ≠ 0x00EE) : Decoded w (decodeFamily w) := by
  unfold decodeFamily
  split
  case h_1 h =>
    have hw : 0x0#4 ++ nnnField w = w := h ▸ append_op_nnn w
    have hwf : (Instr.sys (nnnField w)).WellFormed :=
      wellFormed_sys.2 ⟨fun e => hcls (by rw [← hw, e]; rfl), fun e => hret (by rw [← hw, e]; rfl)⟩
    exact .ok_of_encode (by rw [h]; decide) hwf hw
  case h_2 h | h_3 h | h_11 h | h_12 h =>
    exact .ok_of_encode (by rw [h]; decide) rfl (by rw [encode, ← h, append_op_nnn])
  case h_4 h | h_5 h | h_7 h | h_8 h | h_13 h =>
    exact .ok_of_encode (by rw [h]; decide) rfl (by rw [encode, ← h, append_op_x_kk])
  case h_6 h => exact .ok_of_family (by rw [h]; decide) rfl (by rw [reassembled_of_eq (.inl h), h]; rfl)
  case h_10 h => exact .ok_of_family (by rw [h]; decide) rfl (by rw [reassembled_of_eq (.inr h), h]; rfl)
  case h_9 h => exact decodeFamily8_cases h
  case h_14 h => exact .ok_of_encode (by rw [h]; decide) rfl (by rw [encode, ← h, append_op_x_y_n])
  case h_15 h => exact decodeFamilyE_cases h
  case h_16 => exact decodeFamilyF_cases (eq_F_of_notMem _ (by simp_all))

/-- Everything the decoder can answer: the two constants, then the families (R59). -/
theorem decodeWord_cases (w : Word) : Decoded w (decodeWord w) := by
  unfold decodeWord
  split
  · subst w; exact .ok_of_encode (by decide) rfl rfl
  · split
    · subst w; exact .ok_of_encode (by decide) rfl rfl
    · exact decodeFamily_cases ‹_› ‹_›

/-- Settles O11: what an instruction's case of `Decoded` says. -/
theorem encodeInvertsDecode : Obligations.EncodeInvertsDecode := by
  intro w i h
  have hd := decodeWord_cases w
  rw [h] at hd
  cases hd with
  | ok _ _ _ hwf henc => exact ⟨hwf, henc⟩

/-! ### The illegal words (R61, R66) -/

/-- The two classes of illegal words are disjoint by their families. -/
theorem UnknownKeyWord.not_fatal (h : UnknownKeyWord w) : ¬ UnknownFatalWord w := by
  simp [UnknownFatalWord, h.1]

/-- Settles O12: the three cases of `Decoded` exclude each other. -/
theorem decoderErrorsAreTheIllegalWords : Obligations.DecoderErrorsAreTheIllegalWords := by
  intro w
  have hd := decodeWord_cases w
  generalize decodeWord w = r at hd ⊢
  cases hd with
  | ok i hkey hfatal => simp [hkey, hfatal]
  | recoverable h => simp [h, h.not_fatal]
  | fatal h =>
    have hkey : ¬ UnknownKeyWord w := fun hk => hk.not_fatal h
    simp [h, hkey]

/-! ### A step at an illegal word (R202, R203, R213) -/

/-- The fetched word is the one whose number the two bytes at `PC` make (R39). -/
theorem fetch_of_view_bytes (hpc : s.view .pc ≤ 4094)
    (hw : w.toNat = s.view (.byte (s.view .pc)) * 256 + s.view (.byte (s.view .pc + 1))) : s.fetch = some w := by
  rw [view_byte s (by omega), view_byte s (by omega), ← wordOfBytes_toNat] at hw
  rw [fetch_eq_some hpc, BitVec.eq_of_toNat_eq hw]
  rfl

/-- A fetched word that does not decode gives its error's cause and itself (R202, R203). -/
theorem fetchInstr_of_decode_error {e : DecodeError} (hf : s.fetch = some w) (hd : decodeWord w = .error e) :
    s.fetchInstr = .error (causeOfDecodeError e, some w) := by
  simp only [State.fetchInstr, hf, hd]

/-- Settles O6: the decoder answers the error of the word's class, and the step latches it. -/
theorem illegalWordsFault : Obligations.IllegalWordsFault := by
  intro s w hs hpc hw
  have hf := fetch_of_view_bytes hpc hw
  obtain ⟨hkey, hfatal, -⟩ := decoderErrorsAreTheIllegalWords w
  exact ⟨fun h => step_of_fetchInstr_error hs (fetchInstr_of_decode_error hf (hkey.2 h)),
    fun h => step_of_fetchInstr_error hs (fetchInstr_of_decode_error hf (hfatal.2 h))⟩

end Sys2Proof.Machine
end

section
/-! PROOFS. The family of 40_control_flow.md: JUMP, JUMP-WITH-OFFSET, CALL and RETURN. Each instruction has one equation
per outcome; JUMPs are framed through `State.jumpTo`, CALL and RETURN through `State.setControl`. -/

namespace Sys2Proof.Machine

variable {s : State} {nnn : Addr}

/-! ### The jumps (R80, R83) -/

@[simp] theorem zext16_toNat (nnn : Addr) : (zext16 nnn).toNat = nnn.toNat :=
  BitVec.toNat_setWidth_of_le (by decide)

@[simp] theorem zext16Byte_toNat (b : Byte) : (zext16Byte b).toNat = b.toNat :=
  BitVec.toNat_setWidth_of_le (by decide)

/-- An address plus a byte fits in the 16 bits of `PC` (R83). -/
theorem zext16_add_zext16Byte_toNat (nnn : Addr) (b : Byte) :
    (zext16 nnn + zext16Byte b).toNat = nnn.toNat + b.toNat := by
  have hnnn := nnn.isLt
  have hb := b.isLt
  rw [BitVec.toNat_add, zext16_toNat, zext16Byte_toNat, Nat.mod_eq_of_lt (by omega)]

/-- A jump changes `PC` alone (R8). -/
theorem frame_jumpTo (s : State) (w : Word) : Frame (· = .pc) s (s.jumpTo w) :=
  ⟨rfl, fun p hp => by rw [view_jumpTo, if_neg hp]⟩

theorem exec_jump : exec (.jump nnn) s = .next (s.jumpTo (zext16 nnn)) := rfl

theorem exec_jumpWithOffset :
    exec (.jumpWithOffset nnn) s = .next (s.jumpTo (zext16 nnn + zext16Byte (s.readReg 0))) := rfl

/-- Settles O25: the encoding comes back from the decoder, and the jump's target is `nnn` zero-extended. -/
theorem jumpSetsPc : Obligations.JumpSetsPc :=
  fun nnn s => ⟨decodeWord_encode (i := .jump nnn) rfl, _, exec_jump, frame_jumpTo s _, zext16_toNat nnn⟩

/-- Settles O30: the encoding comes back from the decoder, and the target's sum cannot wrap. -/
theorem jumpWithOffsetAddsV0 : Obligations.JumpWithOffsetAddsV0 :=
  fun nnn s => ⟨decodeWord_encode (i := .jumpWithOffset nnn) rfl, _, exec_jumpWithOffset, frame_jumpTo s _,
    zext16_add_zext16Byte_toNat nnn _⟩

/-! ### The three pieces of state CALL and RETURN write (R15, R16) -/

/-- Replace `PC`, `SP` and the stack: the shape of a completed CALL and of a completed RETURN. -/
def State.setControl (s : State) (pc : Word) (sp : Byte) (stack : Vector Word 16) : State :=
  { s with pc := pc, sp := sp, stack := stack }

/-- A frame over `setControl`, from what it does to `PC`, `SP` and each slot. -/
theorem frame_setControl {P : Part → Prop} {pc : Word} {sp : Byte} {stack : Vector Word 16} (hpc : P .pc)
    (hsp : ¬ P .sp → sp = s.sp) (hstack : ∀ k : Fin 16, ¬ P (.stack k) → stack[k] = s.stack[k]) :
    Frame P s (s.setControl pc sp stack) := by
  refine ⟨rfl, fun p hp => ?_⟩
  cases p with
  | pc => exact absurd hpc hp
  | sp => exact congrArg BitVec.toNat (hsp hp)
  | stack k => exact congrArg BitVec.toNat (hstack k hp)
  | _ => rfl

/-! ### CALL, by its two outcomes (R81, R204) -/

/-- What a CALL leaves when the slot at `SP` exists: `PC + 2` in that slot, `SP` one higher, `PC` at `nnn` (R81). -/
def State.called (s : State) (nnn : Addr) (h : s.view .sp < 16) : State :=
  s.setControl (zext16 nnn) (s.sp + 1) (s.stack.set (s.view .sp) (s.pc + 2) h)

theorem exec_call_push (h : s.view .sp < 16) : exec (.call nnn) s = .next (s.called nnn h) := by
  have hpush := push_ok (s := s.advance) h
  rw [exec, execCall]
  exact mayRaise_of_ok (by rw [hpush]; rfl)

theorem exec_call_overflow (h : 16 ≤ s.view .sp) :
    exec (.call nnn) s = .next (s.raise .stackOverflow (some (encode (.call nnn)))) := by
  have hpush := push_error (s := s.advance) h
  rw [exec, execCall]
  exact mayRaise_of_error (by rw [hpush]; rfl)

/-- A CALL that completes raises `SP` by 1: it cannot wrap (R15). -/
theorem called_view_sp (h : s.view .sp < 16) : (s.called nnn h).view .sp = s.view .sp + 1 :=
  BitVec.toNat_add_of_lt (show s.view .sp + 1 < 2 ^ 8 by omega)

/-- A CALL that completes leaves the address after itself in its slot (R81). -/
theorem called_view_slot (h : s.view .sp < 16) :
    (s.called nnn h).view (.stack ⟨s.view .sp, h⟩) = (s.view .pc + 2) % 65536 :=
  (congrArg BitVec.toNat (Vector.getElem_set_self h)).trans (pc_add_two_toNat s)

/-- A CALL that completes leaves every other slot alone (R16). -/
theorem called_stack_of_ne (h : s.view .sp < 16) {k : Fin 16} (hk : k ≠ ⟨s.view .sp, h⟩) :
    (s.called nnn h).stack[k] = s.stack[k] :=
  Vector.getElem_set_ne h k.isLt fun e => hk (Fin.ext e.symm)

/-- A CALL that completes changes `PC`, `SP` and its slot (R81). -/
theorem frame_called (h : s.view .sp < 16) :
    Frame (fun p => p = .pc ∨ p = .sp ∨ p = .stack ⟨s.view .sp, h⟩) s (s.called nnn h) := by
  refine frame_setControl (.inl rfl) (fun hsp => absurd (.inr (.inl rfl)) hsp) fun k hk => ?_
  exact called_stack_of_ne (nnn := nnn) h (by rintro rfl; exact hk (.inr (.inr rfl)))

/-- Settles O26: the two outcomes of the push. -/
theorem callPushesOrOverflows : Obligations.CallPushesOrOverflows := by
  refine fun nnn s => ⟨decodeWord_encode (i := .call nnn) rfl, fun h => ?_, exec_call_overflow⟩
  exact ⟨_, exec_call_push h, frame_called h, called_view_slot h, called_view_sp h, zext16_toNat nnn⟩

/-! ### RETURN with an address held (R82) -/

/-- RETURN with `k + 1` addresses held loads slot `k` and keeps it (R16, R82). -/
theorem exec_ret_of_view_sp {k : Fin 16} (h : s.view .sp = k.val + 1) :
    exec .ret s = .next (s.setControl s.stack[k] (BitVec.ofNat 8 k.val) s.stack) := by
  have hsp : s.sp.toNat = k.val + 1 := h
  have hne : s.sp ≠ 0 := by rintro e; simp [e] at hsp
  have hpred : s.sp - 1 = BitVec.ofNat 8 k.val := by bv_omega
  have hslot : s.stack[s.sp.toNat - 1]'(by omega) = s.stack[k] := by simp [hsp]
  rw [exec_ret_pop hne (by omega), hpred, hslot]; rfl

/-- Settles O27: RETURN's outcomes with an address held and with none. -/
theorem returnPopsOrUnderflows : Obligations.ReturnPopsOrUnderflows := by
  refine fun s => ⟨rfl, fun k hk => ⟨_, exec_ret_of_view_sp hk, ?_, ?_, rfl⟩, fun h => ?_⟩
  · exact frame_setControl (.inl rfl) (fun hsp => absurd (.inr rfl) hsp) fun _ _ => rfl
  · exact Nat.mod_eq_of_lt (by omega)
  · exact exec_ret_underflow (BitVec.eq_of_toNat_eq h)

/-- Settles O29: the slot CALL wrote is the one RETURN reads, and `SP` falls back to where it was. -/
theorem returnUndoesCall : Obligations.ReturnUndoesCall := by
  intro nnn s t h hcall
  cases (exec_call_push h).symm.trans hcall
  refine ⟨_, exec_ret_of_view_sp (k := ⟨s.view .sp, h⟩) (called_view_sp h), called_view_slot h, ?_⟩
  refine frame_setControl (s := s) (.inl rfl) (fun _ => BitVec.ofNat_toNat ..) fun k hk => ?_
  exact called_stack_of_ne (nnn := nnn) h (by rintro rfl; exact hk (.inr rfl))

end Sys2Proof.Machine
end

section
/-! PROOFS. The family of 41_skips.md: the skips on a byte and on two registers. The skip action (R90) is stated once,
for any condition; each instruction then says which condition it tests. -/

namespace Sys2Proof.Machine

variable {i : Instr} {s : State} {c : Bool} {P : Prop} [Decidable P]

/-! ### The skip action (R90) -/

/-- A step that skips or not changes `PC` alone. -/
theorem frame_advance_skipIf (s : State) (c : Bool) : Frame (· = .pc) s (s.advance.skipIf c) :=
  ⟨skipIf_fault .., fun p hp => by rw [view_skipIf, if_neg hp, view_advance, if_neg hp]⟩

/-- The fetch's advance and the skip's together add 4 or 2 to `PC` (R90, R181). -/
theorem advance_skipIf_view_pc (s : State) (c : Bool) :
    (s.advance.skipIf c).view .pc = (s.view .pc + if c then 4 else 2) % 65536 := by
  cases c with
  | false => exact pc_add_two_toNat s
  | true =>
    calc (s.pc + 2 + 2).toNat
      _ = ((s.view .pc + 2) % 65536 + 2) % 65536 := by rw [BitVec.toNat_add, pc_add_two_toNat]; rfl
      _ = (s.view .pc + 4) % 65536 := Nat.mod_add_mod ..

/-- An instruction that skips exactly when `P` holds: its frame and its `PC`. -/
theorem skip_of_iff (h : exec i s = .next (s.advance.skipIf c)) (hc : c = true ↔ P) :
    ∃ t, exec i s = .next t ∧ Frame (· = .pc) s t ∧ t.view .pc = (s.view .pc + if P then 4 else 2) % 65536 := by
  refine ⟨_, h, frame_advance_skipIf s c, ?_⟩
  rw [advance_skipIf_view_pc, if_congr hc rfl rfl]

/-- An instruction that skips exactly when `P` fails: its frame and its `PC`. -/
theorem skip_of_iff_not (h : exec i s = .next (s.advance.skipIf c)) (hc : c = true ↔ ¬ P) :
    ∃ t, exec i s = .next t ∧ Frame (· = .pc) s t ∧ t.view .pc = (s.view .pc + if P then 2 else 4) % 65536 := by
  rw [← ite_not]; exact skip_of_iff h hc

/-! ### The conditions on a register (R91 to R94) -/

/-- A register equals a byte when their unsigned values are equal. -/
theorem readReg_beq_iff (x : RegIdx) (b : Byte) : (s.readReg x == b) = true ↔ s.view (.reg x) = b.toNat :=
  beq_iff_eq.trans BitVec.toNat_inj.symm

theorem readReg_bne_iff (x : RegIdx) (b : Byte) : (s.readReg x != b) = true ↔ ¬ s.view (.reg x) = b.toNat :=
  bne_iff_ne.trans (not_congr BitVec.toNat_inj.symm)

/-! ### The skips on a literal byte (R91, R92) -/

theorem exec_skipIfEqualByte (x : RegIdx) (kk : Byte) (s : State) :
    exec (.skipIfEqualByte x kk) s = .next (s.advance.skipIf (s.readReg x == kk)) := rfl

theorem exec_skipIfNotEqualByte (x : RegIdx) (kk : Byte) (s : State) :
    exec (.skipIfNotEqualByte x kk) s = .next (s.advance.skipIf (s.readReg x != kk)) := rfl

/-- Settles O31: the encodings come back from the decoder, and each skip tests `V[x]` against `kk`. -/
theorem byteSkips : Obligations.ByteSkips := fun x kk s =>
  ⟨decodeWord_encode (i := .skipIfEqualByte x kk) rfl, decodeWord_encode (i := .skipIfNotEqualByte x kk) rfl,
    skip_of_iff (exec_skipIfEqualByte x kk s) (readReg_beq_iff x kk),
    skip_of_iff_not (exec_skipIfNotEqualByte x kk s) (readReg_bne_iff x kk)⟩

/-! ### The skips on two registers (R93, R94) -/

/-- Family 5 has one instruction: its low nibble is not looked at (R63, D3). -/
theorem decodeWord_family5 (x y n : Nibble) :
    decodeWord (0x5#4 ++ x ++ y ++ n) = .ok (.skipIfRegistersEqual x y) := by
  rw [decodeWord_of_family (by rw [opField_XYN]; decide), decodeFamily, opField_XYN, xField_XYN, yField_XYN]; rfl

/-- Family 9 has one instruction: its low nibble is not looked at (R63, D3). -/
theorem decodeWord_family9 (x y n : Nibble) :
    decodeWord (0x9#4 ++ x ++ y ++ n) = .ok (.skipIfRegistersNotEqual x y) := by
  rw [decodeWord_of_family (by rw [opField_XYN]; decide), decodeFamily, opField_XYN, xField_XYN, yField_XYN]; rfl

theorem exec_skipIfRegistersEqual (x y : RegIdx) (s : State) :
    exec (.skipIfRegistersEqual x y) s = .next (s.advance.skipIf (s.readReg x == s.readReg y)) := rfl

theorem exec_skipIfRegistersNotEqual (x y : RegIdx) (s : State) :
    exec (.skipIfRegistersNotEqual x y) s = .next (s.advance.skipIf (s.readReg x != s.readReg y)) := rfl

/-- Settles O32: the two families decode without their low nibble, and each skip tests `V[x]` against `V[y]`. -/
theorem registerSkips : Obligations.RegisterSkips := fun x y n s =>
  ⟨decodeWord_family5 x y n, decodeWord_family9 x y n,
    skip_of_iff (exec_skipIfRegistersEqual x y s) (readReg_beq_iff x (s.readReg y)),
    skip_of_iff_not (exec_skipIfRegistersNotEqual x y s) (readReg_bne_iff x (s.readReg y))⟩

end Sys2Proof.Machine
end

section
/-! PROOFS. The family of 42_arithmetic.md: the literal forms and family 8. The shapes of a completed instruction (a
write to `V[x]`; a result with its flag; the free byte of the aliasing case) are framed once each, for any value; each
instruction then says which values it writes. -/

namespace Sys2Proof.Machine

variable {i : Instr} {s : State} {x : RegIdx} {r f : Byte}

/-! ### The three shapes (R11, R12, R101) -/

/-- A write to one register after the fetch's advance changes `PC` and that register. -/
theorem frame_advance_writeReg (s : State) (x : RegIdx) (r : Byte) :
    Frame (fun p => p = .pc ∨ p = .reg x) s (s.advance.writeReg x r) := by
  refine ⟨rfl, fun p hp => ?_⟩
  obtain ⟨hpc, hreg⟩ := not_or.1 hp
  rw [view_writeReg, if_neg hreg, view_advance, if_neg hpc]

/-- A result and its flag after the fetch's advance change `PC` and the two registers. -/
theorem frame_advance_writeReg_flag (s : State) (x : RegIdx) (r f : Byte) :
    Frame (fun p => p = .pc ∨ p = .reg x ∨ p = .reg vF) s ((s.advance.writeReg x r).writeReg vF f) := by
  refine ⟨rfl, fun p hp => ?_⟩
  obtain ⟨hpc, hreg, hflag⟩ : p ≠ .pc ∧ p ≠ .reg x ∧ p ≠ .reg vF := by simpa only [not_or] using hp
  rw [view_writeReg, if_neg hflag, view_writeReg, if_neg hreg, view_advance, if_neg hpc]

/-- Taking the free byte after the fetch's advance changes `PC`, `V[15]` and the sequence's position. -/
theorem frame_advance_drawFlag (s : State) :
    Frame (fun p => p = .pc ∨ p = .reg vF ∨ p = .draws) s s.advance.drawFlag := by
  refine ⟨rfl, fun p hp => ?_⟩
  obtain ⟨hpc, hflag, hdraws⟩ : p ≠ .pc ∧ p ≠ .reg vF ∧ p ≠ .draws := by simpa only [not_or] using hp
  rw [view_drawFlag, if_neg hflag, if_neg hdraws, view_advance, if_neg hpc]

/-- An instruction that writes a byte of value `n` to `V[x]` and no flag. -/
theorem writes_of_toNat {n : Nat} (h : exec i s = .next (s.advance.writeReg x r)) (hr : r.toNat = n) :
    ∃ t, exec i s = .next t ∧ Frame (fun p => p = .pc ∨ p = .reg x) s t ∧
      t.view (.reg x) = n ∧ t.view .pc = (s.view .pc + 2) % 65536 := by
  refine ⟨_, h, frame_advance_writeReg s x r, ?_, pc_add_two_toNat s⟩
  rw [view_writeReg, if_pos rfl, hr]

/-- An instruction that writes a result of value `n` to `V[x]` and a flag of value `m`, when they are two registers. -/
theorem writesFlag_of_toNat {n m : Nat} (h : exec i s = .next (s.advance.writeResultFlag x r f)) (hx : x ≠ vF)
    (hr : r.toNat = n) (hf : f.toNat = m) :
    ∃ t, exec i s = .next t ∧ Frame (fun p => p = .pc ∨ p = .reg x ∨ p = .reg vF) s t ∧
      t.view (.reg x) = n ∧ t.view (.reg vF) = m ∧ t.view .pc = (s.view .pc + 2) % 65536 := by
  have hne : Part.reg x ≠ .reg vF := fun e => hx (Part.reg.inj e)
  rw [writeResultFlag_of_ne _ hx] at h
  refine ⟨_, h, frame_advance_writeReg_flag s x r f, ?_, ?_, pc_add_two_toNat s⟩
  · rw [view_writeReg, if_neg hne, view_writeReg, if_pos rfl, hr]
  · rw [view_writeReg, if_pos rfl, hf]

/-- An instruction that writes a result and a flag to the one register `V[15]` leaves the free byte there (D11). -/
theorem drawsFlag_of_aliased (h : exec i s = .next (s.advance.writeResultFlag vF r f)) :
    ∃ t, exec i s = .next t ∧ Frame (fun p => p = .pc ∨ p = .reg vF ∨ p = .draws) s t ∧
      t.view (.reg vF) = (Config.freeByte (s.view .draws)).toNat ∧ t.view .draws = s.view .draws + 1 ∧
      t.view .pc = (s.view .pc + 2) % 65536 := by
  rw [writeResultFlag_of_eq] at h
  refine ⟨_, h, frame_advance_drawFlag s, ?_, rfl, pc_add_two_toNat s⟩
  rw [view_drawFlag, if_pos rfl]; rfl

/-! ### What each instruction writes (R102 to R112) -/

section exec
variable (x y : RegIdx) (kk : Byte) (s : State)

theorem exec_loadByte : exec (.loadByte x kk) s = .next (s.advance.writeReg x kk) := rfl

theorem exec_addByte : exec (.addByte x kk) s = .next (s.advance.writeReg x (s.readReg x + kk)) := rfl

theorem exec_load : exec (.load x y) s = .next (s.advance.writeReg x (s.readReg y)) := rfl

theorem exec_or : exec (.or x y) s = .next (s.advance.writeReg x (s.readReg x ||| s.readReg y)) := rfl

theorem exec_and : exec (.and x y) s = .next (s.advance.writeReg x (s.readReg x &&& s.readReg y)) := rfl

theorem exec_xor : exec (.xor x y) s = .next (s.advance.writeReg x (s.readReg x ^^^ s.readReg y)) := rfl

theorem exec_add :
    exec (.add x y) s =
      .next (s.advance.writeResultFlag x (s.readReg x + s.readReg y) (carryFlag (s.readReg x) (s.readReg y))) := rfl

theorem exec_sub :
    exec (.sub x y) s =
      .next (s.advance.writeResultFlag x (s.readReg x - s.readReg y) (greaterFlag (s.readReg x) (s.readReg y))) := rfl

theorem exec_subn :
    exec (.subn x y) s =
      .next (s.advance.writeResultFlag x (s.readReg y - s.readReg x) (greaterFlag (s.readReg y) (s.readReg x))) := rfl

theorem exec_shiftRight :
    exec (.shiftRight x y) s =
      .next (s.advance.writeResultFlag x (s.readReg x >>> 1) (lowBitFlag (s.readReg x))) := rfl

theorem exec_shiftLeft :
    exec (.shiftLeft x y) s =
      .next (s.advance.writeResultFlag x (s.readReg x <<< 1) (highBitFlag (s.readReg x))) := rfl

end exec

/-! ### The values written, as unsigned numbers (R7) -/

section values
variable (a b : Byte)

/-- A difference wraps mod 256 (R109). -/
theorem byte_sub_toNat : (a - b).toNat = (a.toNat + 256 - b.toNat) % 256 := by
  have hb := b.isLt
  rw [BitVec.toNat_sub]; omega

/-- A right shift by one bit halves (R110). -/
theorem byte_ushiftRight_one_toNat : (a >>> 1).toNat = a.toNat / 2 := by
  rw [BitVec.toNat_ushiftRight, Nat.shiftRight_one]

/-- A left shift by one bit doubles mod 256 (R112). -/
theorem byte_shiftLeft_one_toNat : (a <<< 1).toNat = a.toNat * 2 % 256 := by
  rw [BitVec.toNat_shiftLeft, Nat.shiftLeft_eq]

theorem flagByte_decide_toNat (P : Prop) [Decidable P] : (flagByte (decide P)).toNat = if P then 1 else 0 := by
  by_cases h : P <;> simp [flagByte, h]

theorem carryFlag_toNat : (carryFlag a b).toNat = if a.toNat + b.toNat ≥ 256 then 1 else 0 :=
  flagByte_decide_toNat _

theorem greaterFlag_toNat : (greaterFlag a b).toNat = if a.toNat > b.toNat then 1 else 0 :=
  flagByte_decide_toNat _

/-- The bit a right shift drops is the remainder of the halving (R110). -/
theorem lowBitFlag_toNat : (lowBitFlag a).toNat = a.toNat % 2 := by
  rw [lowBitFlag, BitVec.toNat_and]; exact Nat.and_one_is_mod _

/-- The bit a left shift drops is the top one (R112). -/
theorem highBitFlag_toNat : (highBitFlag a).toNat = a.toNat / 128 := by
  have ha := a.isLt
  calc ((a.toNat &&& 128) >>> 7)
    _ = (a.toNat >>> 7) &&& 1 := Nat.shiftRight_and_distrib ..
    _ = a.toNat / 128 % 2 := by rw [Nat.and_one_is_mod, Nat.shiftRight_eq_div_pow]
    _ = a.toNat / 128 := Nat.mod_eq_of_lt (by omega)

end values

/-! ### The obligations -/

/-- Settles O37: ADD's sum and carry, written to two registers. -/
theorem addSetsCarry : Obligations.AddSetsCarry := fun x y s =>
  ⟨decodeWord_encode (i := .add x y) rfl,
    fun hx => writesFlag_of_toNat (exec_add x y s) hx (BitVec.toNat_add ..) (carryFlag_toNat ..)⟩

/-- Settles O38: both differences go to `V[x]`; the operands' order decides the minuend (C4). -/
theorem subtractionsSetStrictFlag : Obligations.SubtractionsSetStrictFlag := fun x y s =>
  ⟨decodeWord_encode (i := .sub x y) rfl, decodeWord_encode (i := .subn x y) rfl,
    fun hx => writesFlag_of_toNat (exec_sub x y s) hx (byte_sub_toNat ..) (greaterFlag_toNat ..),
    fun hx => writesFlag_of_toNat (exec_subn x y s) hx (byte_sub_toNat ..) (greaterFlag_toNat ..)⟩

/-- Settles O39: each shift and the bit it drops are read off the old `V[x]`. -/
theorem shiftsMoveOneBit : Obligations.ShiftsMoveOneBit := fun x y s =>
  ⟨decodeWord_encode (i := .shiftRight x y) rfl, decodeWord_encode (i := .shiftLeft x y) rfl,
    fun hx => writesFlag_of_toNat (exec_shiftRight x y s) hx (byte_ushiftRight_one_toNat _) (lowBitFlag_toNat _),
    fun hx => writesFlag_of_toNat (exec_shiftLeft x y s) hx (byte_shiftLeft_one_toNat _) (highBitFlag_toNat _)⟩

/-- Settles O40: all five write a result and a flag, here to the one register `V[15]`. -/
theorem aliasedFlagIsAFreeValue : Obligations.AliasedFlagIsAFreeValue := by
  intro y s i hi
  simp only [List.mem_cons, List.not_mem_nil, or_false] at hi
  rcases hi with rfl | rfl | rfl | rfl | rfl
  · exact drawsFlag_of_aliased (exec_add vF y s)
  · exact drawsFlag_of_aliased (exec_sub vF y s)
  · exact drawsFlag_of_aliased (exec_shiftRight vF y s)
  · exact drawsFlag_of_aliased (exec_subn vF y s)
  · exact drawsFlag_of_aliased (exec_shiftLeft vF y s)

/-- Settles O33: the source is the literal byte, respectively the old `V[y]`. -/
theorem loadsWriteTheirSource : Obligations.LoadsWriteTheirSource := fun x y kk s =>
  ⟨decodeWord_encode (i := .loadByte x kk) rfl, decodeWord_encode (i := .load x y) rfl,
    writes_of_toNat (exec_loadByte x kk s) rfl, writes_of_toNat (exec_load x y s) rfl⟩

/-- Settles O34: the sum of two bytes wraps, and only `V[x]` is written. -/
theorem addByteWrapsSilently : Obligations.AddByteWrapsSilently := fun x kk s =>
  ⟨decodeWord_encode (i := .addByte x kk) rfl, writes_of_toNat (exec_addByte x kk s) (BitVec.toNat_add ..)⟩

/-- Settles O35: the or of two bytes is the or of their numbers, and only `V[x]` is written. -/
theorem orCombinesRegisters : Obligations.OrCombinesRegisters := fun x y s =>
  ⟨decodeWord_encode (i := .or x y) rfl, writes_of_toNat (exec_or x y s) (BitVec.toNat_or ..)⟩

/-- Settles O36: as OR, with the numbers' and and exclusive or. -/
theorem andXorCombineRegisters : Obligations.AndXorCombineRegisters := fun x y s =>
  ⟨decodeWord_encode (i := .and x y) rfl, decodeWord_encode (i := .xor x y) rfl,
    writes_of_toNat (exec_and x y s) (BitVec.toNat_and ..), writes_of_toNat (exec_xor x y s) (BitVec.toNat_xor ..)⟩

end Sys2Proof.Machine
end

section
/-! PROOFS. The family of 43_random.md: what RANDOM-AND-MASK writes, and that every instruction outside
`ConsumesFreeValue` ignores the position in the sequence of free values. The second compares two runs, so each shared
operation that is more than a record update has a lemma that it commutes with setting the position. -/

namespace Sys2Proof.Machine

variable {i : Instr} {s : State} {x y : RegIdx}

/-! ### RANDOM-AND-MASK (R120, R121) -/

theorem exec_randomAndMask (x : RegIdx) (kk : Byte) (s : State) :
    exec (.randomAndMask x kk) s = .next (s.advance.writeMasked x (Config.freeByte s.draws) kk).countDraw := rfl

/-- A masked write that consumes a free value changes, after the fetch's advance, `PC`, `V[x]` and the position. -/
theorem frame_advance_writeMasked_countDraw (s : State) (x : RegIdx) (r kk : Byte) :
    Frame (fun p => p = .pc ∨ p = .reg x ∨ p = .draws) s (s.advance.writeMasked x r kk).countDraw := by
  refine ⟨rfl, fun p hp => ?_⟩
  obtain ⟨hpc, hreg, hdraws⟩ : p ≠ .pc ∧ p ≠ .reg x ∧ p ≠ .draws := by simpa only [not_or] using hp
  rw [view_countDraw, if_neg hdraws, view_writeMasked, if_neg hreg, view_advance, if_neg hpc]

/-- The number left in `V[x]` by a masked write (R121). -/
theorem writeMasked_countDraw_view_reg (s : State) (x : RegIdx) (r kk : Byte) :
    (s.writeMasked x r kk).countDraw.view (.reg x) = r.toNat &&& kk.toNat := by
  rw [view_countDraw, if_neg (by simp), view_writeMasked, if_pos rfl, BitVec.toNat_and]

/-- A masked byte has no bit outside its mask: 255 minus the mask is the mask's complement. -/
theorem masked_and_complement (r kk : Byte) : r.toNat &&& kk.toNat &&& (255 - kk.toNat) = 0 :=
  calc r.toNat &&& kk.toNat &&& (255 - kk.toNat)
    _ = (r &&& kk &&& ~~~kk).toNat := by rw [BitVec.toNat_and, BitVec.toNat_and, BitVec.toNat_not]
    _ = 0 := by rw [BitVec.and_assoc, BitVec.and_not_self]; simp

/-- Settles O41: the byte drawn is the one at the old position, and the mask is applied before the only write. -/
theorem randomIsMasked : Obligations.RandomIsMasked := by
  refine fun x kk s => ⟨decodeWord_encode (i := .randomAndMask x kk) rfl, _, exec_randomAndMask x kk s,
    frame_advance_writeMasked_countDraw .., writeMasked_countDraw_view_reg .., ?_, rfl, pc_add_two_toNat s⟩
  rw [writeMasked_countDraw_view_reg]
  exact masked_and_complement ..

/-! ### The other instructions neither read nor move the position (R101, R120, R192) -/

/-- The state with another position in the sequence of free values (log 1). -/
def State.setDraws (s : State) (d : Nat) : State := { s with draws := d }

/-- A flag-writing instruction that consumes no free value has a destination other than `V[15]` (R101). -/
theorem ne_vF_of_not_consumesFreeValue (h : ¬ ConsumesFreeValue i)
    (hi : i ∈ [Instr.add x y, .sub x y, .shiftRight x y, .subn x y, .shiftLeft x y]) : x ≠ vF := by
  rintro rfl
  exact h (.inr ⟨y, hi⟩)

section setDraws
variable (s : State) (d : Nat)

theorem skipIf_setDraws (c : Bool) : (s.setDraws d).skipIf c = (s.skipIf c).setDraws d := by
  cases c <;> rfl

/-- A result and its flag in two registers take no free byte (R101). -/
theorem writeResultFlag_setDraws (hx : x ≠ vF) (r f : Byte) :
    (s.setDraws d).writeResultFlag x r f = (s.writeResultFlag x r f).setDraws d := by
  rw [writeResultFlag_of_ne _ hx, writeResultFlag_of_ne _ hx]; rfl

theorem writeRegsFrom_setDraws (k : Nat) (bs : List Byte) :
    State.writeRegsFrom k bs (s.setDraws d) = (State.writeRegsFrom k bs s).setDraws d := by
  induction bs generalizing k s with
  | nil => rfl
  | cons c bs ih => exact ih (s.writeReg (BitVec.ofNat 4 k) c) (k + 1)

theorem writeBytes_setDraws (a : Nat) (bs : List Byte) :
    (s.setDraws d).writeBytes a bs = (s.writeBytes a bs).map (·.setDraws d) := by
  unfold State.writeBytes
  split <;> rfl

theorem push_setDraws : (s.setDraws d).push = s.push.map (·.setDraws d) := by
  unfold State.push
  split
  · rw [dif_pos ‹_›]; rfl
  · rw [dif_neg ‹_›]; rfl

/-- A check that does not depend on the position, then a continuation that commutes with setting it. -/
theorem bind_setDraws {α : Type} (check : Except Cause α) {next next' : α → Except Cause State}
    (h : ∀ a, next' a = (next a).map (·.setDraws d)) :
    (check >>= next') = (check >>= next).map (·.setDraws d) := by
  cases check with
  | error c => rfl
  | ok a => exact h a

theorem drawSprite_setDraws (policy : Config.EdgePolicy) (x y : RegIdx) (n : Nibble) :
    State.drawSprite policy x y n (s.setDraws d) = (State.drawSprite policy x y n s).map (·.setDraws d) :=
  bind_setDraws d (s.readBytes (s.effectiveAddr 0) n.toNat) fun _ => by
    symm
    exact apply_ite (Except.map (State.setDraws · d)) ..

/-- An instruction that may raise: the fault record does not hold the position, and its effect commutes with it. -/
theorem mayRaise_setDraws {effect : State → Except Cause State} (w : Word)
    (he : effect (s.advance.setDraws d) = (effect s.advance).map (·.setDraws d)) :
    (s.setDraws d).mayRaise w effect = onNext (·.setDraws d) (s.mayRaise w effect) := by
  have he : effect (s.setDraws d).advance = _ := he
  cases h : effect s.advance with
  | ok t => rw [mayRaise_of_ok h, mayRaise_of_ok (he.trans (by rw [h]; rfl))]; rfl
  | error c => rw [mayRaise_of_error h, mayRaise_of_error (he.trans (by rw [h]; rfl))]; rfl

theorem exec_ret_setDraws : exec .ret (s.setDraws d) = onNext (·.setDraws d) (exec .ret s) := by
  by_cases h0 : s.sp = 0
  · rw [exec_ret_underflow h0, exec_ret_underflow (s := s.setDraws d) h0]; rfl
  by_cases h : s.sp.toNat - 1 < 16
  · rw [exec_ret_pop h0 h, exec_ret_pop (s := s.setDraws d) h0 h]; rfl
  · have h : 16 < s.sp.toNat := by omega
    rw [exec_ret_noStackSlot h, exec_ret_noStackSlot (s := s.setDraws d) h]; rfl

/-- An instruction that consumes no free value commutes with setting the position. -/
theorem exec_setDraws (i : Instr) (hi : ¬ ConsumesFreeValue i) :
    exec i (s.setDraws d) = onNext (·.setDraws d) (exec i s) := by
  cases i with
  | randomAndMask x kk => exact absurd (.inl ⟨x, kk, rfl⟩) hi
  | add x y | sub x y | subn x y | shiftRight x y | shiftLeft x y =>
    have hx : x ≠ vF := ne_vF_of_not_consumesFreeValue (y := y) hi (by simp)
    exact congrArg Host.Outcome.next (writeResultFlag_setDraws s.advance d hx _ _)
  | ret => exact exec_ret_setDraws s d
  | skipIfEqualByte | skipIfNotEqualByte | skipIfRegistersEqual | skipIfRegistersNotEqual =>
    exact congrArg Host.Outcome.next (skipIf_setDraws s.advance d _)
  | blockWaitForKey x =>
    have hleast : (s.setDraws d).advance.leastKey = s.advance.leastKey := rfl
    simp only [exec, execBlockWaitForKey, runs_eq, onNext, hleast]
    cases s.advance.leastKey <;> rfl
  | call nnn =>
    simp only [exec, execCall]
    refine mayRaise_setDraws s d _ ?_
    rw [push_setDraws]
    cases s.advance.push <;> rfl
  | drawSprite => exact mayRaise_setDraws s d _ (drawSprite_setDraws ..)
  | skipIfKeyPressed x | skipIfKeyNotPressed x =>
    simp only [exec, execSkipIfKeyPressed, execSkipIfKeyNotPressed]
    refine mayRaise_setDraws s d _ (bind_setDraws d (keyOperand (s.advance.readReg x)) fun k => ?_)
    exact congrArg Except.ok (skipIf_setDraws s.advance d _)
  | loadFontAddress x =>
    simp only [exec, execLoadFontAddress]
    exact mayRaise_setDraws s d _ (bind_setDraws d (glyphOperand (s.advance.readReg x)) fun _ => rfl)
  | storeBcdDigits | storeRegistersToMemory =>
    simp only [exec, execStoreBcdDigits, execStoreRegistersToMemory]
    exact mayRaise_setDraws s d _ (writeBytes_setDraws s.advance d _ _)
  | loadRegistersFromMemory x =>
    simp only [exec, execLoadRegistersFromMemory]
    refine mayRaise_setDraws s d _ (bind_setDraws d (s.advance.readBytes (s.advance.effectiveAddr 0) (x.toNat + 1)) ?_)
    exact fun bytes => congrArg Except.ok (writeRegsFrom_setDraws s.advance d 0 bytes)
  | _ => rfl

end setDraws

/-- Settles O22: replacing the position by hand is setting it. -/
theorem otherInstructionsIgnoreFreeValues : Obligations.OtherInstructionsIgnoreFreeValues :=
  fun i s d hi => exec_setDraws s d i hi

end Sys2Proof.Machine
end

section
/-! PROOFS. The family of 44_drawing.md: CLEAR-SCREEN, and DRAW-SPRITE by its three outcomes. A finished sprite is
`State.drawn`; what it does to the screen, the flag and `REDRAW` (`Drawn`) is proved once for every edge policy, and the
second of two draws is read off two `Drawn` facts over the same covered cells. -/

namespace Sys2Proof.Machine

variable {s t u : State} {x y : RegIdx} {n : Nibble} {policy : Config.EdgePolicy}

/-! ### CLEAR-SCREEN (R126) -/

theorem exec_clearScreen (s : State) :
    exec .clearScreen s = .next { s.advance with fb := blankScreen, redraw := true } := rfl

/-- Setting the screen and `REDRAW` changes, after the fetch's advance, `PC`, `REDRAW` and cells. -/
theorem frame_advance_screen (s : State) (fb : Screen) (r : Bool) :
    Frame (fun p => p = .pc ∨ p = .redraw ∨ ∃ x y, p = .cell x y) s { s.advance with fb := fb, redraw := r } := by
  refine ⟨rfl, fun p hp => ?_⟩
  cases p with
  | pc => exact absurd (.inl rfl) hp
  | redraw => exact absurd (.inr (.inl rfl)) hp
  | cell cx cy => exact absurd (.inr (.inr ⟨cx, cy, rfl⟩)) hp
  | _ => rfl

/-- Every cell of the blank screen is off (R126). -/
theorem blankScreen_cell (c : Fin 64 × Fin 32) : Screen.cell blankScreen c = false := by
  simp [Screen.cell, blankScreen]

/-- Settles O42: the screen written is the blank one. -/
theorem clearScreenBlanks : Obligations.ClearScreenBlanks :=
  ⟨rfl, fun s => ⟨_, exec_clearScreen s, frame_advance_screen s _ _,
    fun cx cy => bit_eq_zero.2 (blankScreen_cell (cx, cy)), rfl, pc_add_two_toNat s⟩⟩

/-! ### A sprite's rows and cells (R127, R130) -/

/-- The rows of a sprite: `n` bytes from `I` upward (R127). -/
def State.spriteRows (s : State) (n : Nibble) : List Byte :=
  (List.range n.toNat).map fun k => s.mem.read (s.effectiveAddr 0 + k)

/-- The cells under a sprite's 1 bits, in the order they are toggled (R127). -/
def State.spriteCells (policy : Config.EdgePolicy) (x y : RegIdx) (n : Nibble) (s : State) : List (Fin 64 × Fin 32) :=
  litCells policy (originX (s.readReg x)) (originY (s.readReg y)) (s.spriteRows n)

/-- The state after a sprite that is not rejected (R127). -/
def State.drawn (policy : Config.EdgePolicy) (x y : RegIdx) (n : Nibble) (s : State) : State :=
  s.writePlot (plotCells s.fb (s.spriteCells policy x y n))

/-- The sprite's bytes are in memory: there are none, or the last is at most at 4095 (R127, D6). -/
def State.SpriteInMemory (s : State) (n : Nibble) : Prop := n = 0 ∨ s.view .index + n.toNat - 1 ≤ 4095

/-- The sprite is drawn under the policy in force: it has no rows, or its bytes are in memory and its extent is on the
screen (R127, R128, D8). -/
def State.SpriteFits (x y : RegIdx) (n : Nibble) (s : State) : Prop :=
  n = 0 ∨ (s.view .index + n.toNat - 1 ≤ 4095 ∧ s.view (.reg x) % 64 ≤ 56 ∧ s.view (.reg y) % 32 + n.toNat ≤ 32)

/-- The cells a sprite covers when a policy places its pixels (R127, R128, R130). -/
def State.SpriteCoversAt (policy : Config.EdgePolicy) (x y : RegIdx) (n : Nibble) (s : State) : Nat → Nat → Prop :=
  SpriteCovers s (policyPlace policy) (s.view (.reg x) % 64) (s.view (.reg y) % 32) n.toNat

theorem State.SpriteFits.inMemory (h : s.SpriteFits x y n) : s.SpriteInMemory n := h.imp_right And.left

/-- A height other than 0 is positive. -/
theorem height_pos (h : n ≠ 0) : 0 < n.toNat := by bv_omega

@[simp] theorem spriteRows_length (s : State) (n : Nibble) : (s.spriteRows n).length = n.toNat := by
  simp [State.spriteRows]

/-- Row `r` of a sprite in memory is the byte at `I + r` (R127). -/
theorem spriteRows_toNat (hm : s.SpriteInMemory n) {r : Nat} (h : r < (s.spriteRows n).length) :
    (s.spriteRows n)[r].toNat = s.view (.byte (s.view .index + r)) := by
  rw [spriteRows_length] at h
  have hn : n ≠ 0 := by rintro rfl; exact absurd h (Nat.not_lt_zero r)
  have ha : s.view .index + r ≤ 4095 := by
    have := hm.resolve_left hn
    omega
  rw [view_byte s ha]
  simp [State.spriteRows, State.effectiveAddr, State.view]

/-- The cells listed for a sprite in memory are the cells it covers (R127, R130). -/
theorem mem_spriteCells (hm : s.SpriteInMemory n) (d : Fin 64 × Fin 32) :
    d ∈ s.spriteCells policy x y n ↔ s.SpriteCoversAt policy x y n d.1 d.2 := by
  rw [State.spriteCells, mem_litCells]
  constructor
  · rintro ⟨r, hr, c, hc, hbit, hplace⟩
    rw [spriteBit_eq_true, spriteRows_toNat hm] at hbit
    exact ⟨c, r, hc, by rwa [spriteRows_length] at hr, hplace, hbit⟩
  · rintro ⟨c, r, hc, hr, hplace, hbit⟩
    have hr : r < (s.spriteRows n).length := by rwa [spriteRows_length]
    refine ⟨r, hr, c, hc, ?_, hplace⟩
    rwa [spriteBit_eq_true, spriteRows_toNat hm]

/-- A sprite toggles no cell twice (R127 case (d)). -/
theorem nodup_spriteCells (policy : Config.EdgePolicy) (x y : RegIdx) (n : Nibble) (s : State) :
    (s.spriteCells policy x y n).Nodup :=
  nodup_litCells _ _ _ _ (by rw [spriteRows_length]; omega)

/-! ### What a finished plot does (R127) -/

section plot
variable {covered : Nat → Nat → Prop} {cells : List (Fin 64 × Fin 32)} {fb : Screen}

/-- A plot toggles the cells listed, when each is listed once. -/
theorem plotCells_cell (hnodup : cells.Nodup) (d : Fin 64 × Fin 32) :
    Screen.cell (plotCells fb cells).fb d = if d ∈ cells then !Screen.cell fb d else Screen.cell fb d :=
  plot_cell cells hnodup _ d

/-- A plot collides when a cell listed was on. -/
theorem plotCells_collision (hnodup : cells.Nodup) (hmem : ∀ d : Fin 64 × Fin 32, d ∈ cells ↔ covered d.1 d.2) :
    (plotCells fb cells).collision = true ↔
      ∃ (x : Fin 64) (y : Fin 32), covered x y ∧ Screen.cell fb (x, y) = true := by
  rw [plotCells, plot_collision cells hnodup, Bool.false_or, List.any_eq_true]
  simp only [hmem, Prod.exists]

/-- A plot changes something when a cell is listed. -/
theorem plotCells_changed (hmem : ∀ d : Fin 64 × Fin 32, d ∈ cells ↔ covered d.1 d.2) :
    (plotCells fb cells).changed = true ↔ ∃ (x : Fin 64) (y : Fin 32), covered x y := by
  rw [plotCells, plot_changed, Bool.false_or, Bool.not_eq_true', List.isEmpty_eq_false_iff_exists_mem]
  simp only [hmem, Prod.exists]

theorem view_writePlot_flag (s : State) (p : Plot) : (s.writePlot p).view (.reg 15) = bit p.collision := by
  rw [State.view, writePlot_readReg, if_pos rfl]
  cases p.collision <;> rfl

theorem view_writePlot_redraw (s : State) (p : Plot) : (s.writePlot p).view .redraw = bit (s.redraw || p.changed) := rfl

theorem view_writePlot_cell (s : State) (p : Plot) (cx : Fin 64) (cy : Fin 32) :
    (s.writePlot p).view (.cell cx cy) = bit (Screen.cell p.fb (cx, cy)) := rfl

/-- A cell of the screen seen as a number. -/
theorem view_cell_eq_one {cx : Fin 64} {cy : Fin 32} :
    s.view (.cell cx cy) = 1 ↔ Screen.cell s.fb (cx, cy) = true := bit_eq_one

/-- Writing a plot of the covered cells, each listed once, is what drawing does. -/
theorem drawn_writePlot (hnodup : cells.Nodup) (hmem : ∀ d : Fin 64 × Fin 32, d ∈ cells ↔ covered d.1 d.2) :
    Drawn covered s (s.writePlot (plotCells s.fb cells)) := by
  have hcollision := plotCells_collision (fb := s.fb) hnodup hmem
  have hchanged := plotCells_changed (fb := s.fb) hmem
  simp only [Drawn, view_cell_eq_one, view_writePlot_flag, view_writePlot_redraw]
  refine ⟨fun cx cy => ⟨fun h => ?_, fun h => ?_⟩, fun h => ?_, fun h => ?_, fun h => ?_, fun h => ?_⟩
  · rw [view_writePlot_cell, plotCells_cell hnodup, if_pos ((hmem _).2 h)]; exact bit_not _
  · rw [view_writePlot_cell, plotCells_cell hnodup, if_neg (mt (hmem _).1 h)]; rfl
  · rw [bit_eq_one, hcollision]; exact h
  · rw [bit_eq_zero, ← Bool.not_eq_true, hcollision]; exact h
  · rw [bit_eq_one, hchanged.2 h, Bool.or_true]
  · rw [Bool.eq_false_of_not_eq_true (mt hchanged.1 h), Bool.or_false]; rfl

end plot

/-- A sprite in memory, drawn under any policy. -/
theorem drawn_spriteCoversAt (policy : Config.EdgePolicy) (x y : RegIdx) (hm : s.SpriteInMemory n) :
    Drawn (s.SpriteCoversAt policy x y n) s (s.drawn policy x y n) :=
  drawn_writePlot (nodup_spriteCells ..) (mem_spriteCells hm)

/-- What DRAW-SPRITE may change when it does not fault: `PC`, `V[15]`, `REDRAW` and cells (R127). -/
def SpriteChanges (p : Part) : Prop := p = .pc ∨ p = .reg 15 ∨ p = .redraw ∨ ∃ cx cy, p = .cell cx cy

/-- A sprite drawn after the fetch's advance changes nothing else. -/
theorem frame_advance_drawn (policy : Config.EdgePolicy) (x y : RegIdx) (n : Nibble) (s : State) :
    Frame SpriteChanges s (s.advance.drawn policy x y n) := by
  refine ⟨rfl, fun p hp => ?_⟩
  cases p with
  | pc => exact absurd (.inl rfl) hp
  | reg z =>
    have hz : z ≠ 15 := by rintro rfl; exact hp (.inr (.inl rfl))
    rw [State.view, State.drawn, writePlot_readReg, if_neg hz]; rfl
  | redraw => exact absurd (.inr (.inr (.inl rfl))) hp
  | cell cx cy => exact absurd (.inr (.inr (.inr ⟨cx, cy, rfl⟩))) hp
  | _ => rfl

/-! ### DRAW-SPRITE, by its three outcomes (R127, R128, R212) -/

/-- The extent leaves the screen past column 63 or row 31 (R128). -/
theorem edgeCrossed_eq_true {ox oy n : Nat} : edgeCrossed ox oy n = true ↔ 56 < ox ∨ 32 < oy + n := by
  simp [edgeCrossed]

/-- The bytes of a sprite in memory are read (R127). -/
theorem readBytes_spriteRows (hm : s.SpriteInMemory n) :
    s.readBytes (s.effectiveAddr 0) n.toNat = .ok (s.spriteRows n) := by
  refine readBytes_ok ?_
  rcases hm with rfl | hm
  · exact .inl rfl
  · refine .inr ?_
    rw [State.view] at hm
    rw [State.effectiveAddr]
    omega

/-- A sprite in memory is drawn, unless the policy rejects its extent (R127, R128). -/
theorem drawSprite_eq_drawn (hm : s.SpriteInMemory n) (hp : policy = .reject → s.SpriteFits x y n) :
    State.drawSprite policy x y n s = .ok (s.drawn policy x y n) := by
  rw [drawSprite_of_rows (readBytes_spriteRows hm), if_neg]
  · rfl
  · rintro ⟨hn, hedge, hreject⟩
    rcases hp hreject with rfl | ⟨-, hx, hy⟩
    · exact absurd hn (Nat.lt_irrefl 0)
    · rcases edgeCrossed_eq_true.1 hedge with hx' | hy'
      · exact absurd hx' (Nat.not_lt.2 hx)
      · exact absurd hy' (Nat.not_lt.2 hy)

/-- A sprite that fits completes: it is drawn from the advanced state, which has the same registers and memory. -/
theorem exec_drawSprite_of_fits (h : s.SpriteFits x y n) :
    ∃ t, exec (.drawSprite x y n) s = .next t ∧ Frame SpriteChanges s t ∧
      Drawn (s.SpriteCoversAt .reject x y n) s t ∧ t.view .pc = (s.view .pc + 2) % 65536 :=
  ⟨_, mayRaise_of_ok (drawSprite_eq_drawn (s := s.advance) h.inMemory fun _ => h), frame_advance_drawn .reject x y n s,
    drawn_spriteCoversAt (s := s.advance) .reject x y h.inMemory, pc_add_two_toNat s⟩

theorem exec_drawSprite_memory (hn : n ≠ 0) (h : 4095 < s.view .index + n.toNat - 1) :
    exec (.drawSprite x y n) s = .next (s.raise .memoryOutOfRange (some (encode (.drawSprite x y n)))) :=
  mayRaise_of_error (drawSprite_of_error (s := s.advance) (readBytes_error (height_pos hn) h))

theorem exec_drawSprite_edge (hn : n ≠ 0) (hm : s.view .index + n.toNat - 1 ≤ 4095)
    (h : 56 < s.view (.reg x) % 64 ∨ 32 < s.view (.reg y) % 32 + n.toNat) :
    exec (.drawSprite x y n) s = .next (s.raise .framebufferOutOfRange (some (encode (.drawSprite x y n)))) := by
  refine mayRaise_of_error ?_
  rw [drawSprite_of_rows (readBytes_spriteRows (s := s.advance) (.inr hm))]
  exact if_pos ⟨height_pos hn, edgeCrossed_eq_true.2 h, rfl⟩

/-- Settles O43: the encoding comes back from the decoder, and the premise is `State.SpriteFits`. -/
theorem drawSpriteTogglesCells : Obligations.DrawSpriteTogglesCells :=
  fun x y n _ => ⟨decodeWord_encode (i := .drawSprite x y n) rfl, exec_drawSprite_of_fits⟩

/-- Settles O44: the read fails first; otherwise the edge is crossed. -/
theorem drawSpriteFaults : Obligations.DrawSpriteFaults :=
  fun _ _ _ _ hn => ⟨exec_drawSprite_memory hn, exec_drawSprite_edge hn⟩

/-- Settles O45: neither policy rejects, and what a finished sprite does was proved for every policy. -/
theorem alternateEdgePolicies : Obligations.AlternateEdgePolicies := fun x y _ _ hm =>
  ⟨⟨_, drawSprite_eq_drawn hm nofun, drawn_spriteCoversAt .clip x y hm⟩,
   ⟨_, drawSprite_eq_drawn hm nofun, drawn_spriteCoversAt .wrap x y hm⟩⟩

/-! ### Drawing twice (R127 case (f), log 14) -/

/-- A sprite without a fault fits (R212). -/
theorem spriteFits_of_safe (h : exec (.drawSprite x y n) s = .next t) (ht : Safe t) : s.SpriteFits x y n := by
  by_cases hn : n = 0
  · exact .inl hn
  by_cases hm : s.view .index + n.toNat - 1 ≤ 4095
  · by_cases hedge : 56 < s.view (.reg x) % 64 ∨ 32 < s.view (.reg y) % 32 + n.toNat
    · cases (exec_drawSprite_edge hn hm hedge).symm.trans h
      cases ht
    · exact .inr ⟨hm, by omega⟩
  · cases (exec_drawSprite_memory hn (by omega)).symm.trans h
    cases ht

section twice
variable {covered : Nat → Nat → Prop}

/-- A cell holds 0 or 1. -/
theorem view_cell_cases (s : State) (cx : Fin 64) (cy : Fin 32) :
    s.view (.cell cx cy) = 0 ∨ s.view (.cell cx cy) = 1 := by
  cases h : Screen.cell s.fb (cx, cy)
  · exact .inl (bit_eq_zero.2 h)
  · exact .inr (bit_eq_one.2 h)

/-- A covered cell toggles (R127). -/
theorem Drawn.cell_of_covered (h : Drawn covered s t) {cx : Fin 64} {cy : Fin 32} (hc : covered cx cy) :
    t.view (.cell cx cy) = 1 - s.view (.cell cx cy) := (h.1 cx cy).1 hc

/-- Another cell stays (R127). -/
theorem Drawn.cell_of_not_covered (h : Drawn covered s t) {cx : Fin 64} {cy : Fin 32} (hc : ¬ covered cx cy) :
    t.view (.cell cx cy) = s.view (.cell cx cy) := (h.1 cx cy).2 hc

/-- The flag of a drawn sprite is its collision (R127). -/
theorem Drawn.flag_eq_one (h : Drawn covered s t) :
    t.view (.reg 15) = 1 ↔ ∃ (cx : Fin 64) (cy : Fin 32), covered cx cy ∧ s.view (.cell cx cy) = 1 := by
  obtain ⟨-, hon, hoff, -, -⟩ := h
  refine ⟨fun h1 => by_contra fun hne => ?_, hon⟩
  rw [hoff hne] at h1
  cases h1

/-- A covered cell is on after a draw when it was off before. -/
theorem Drawn.covered_cell_eq_one (h : Drawn covered s t) {cx : Fin 64} {cy : Fin 32} (hc : covered cx cy) :
    t.view (.cell cx cy) = 1 ↔ s.view (.cell cx cy) = 0 := by
  rw [h.cell_of_covered hc]; omega

/-- Toggling the same cells twice restores every cell. -/
theorem Drawn.twice_cell (h : Drawn covered s t) (h' : Drawn covered t u) (cx : Fin 64) (cy : Fin 32) :
    u.view (.cell cx cy) = s.view (.cell cx cy) := by
  by_cases hc : covered cx cy
  · rw [h'.cell_of_covered hc, h.cell_of_covered hc]
    rcases view_cell_cases s cx cy with hs | hs <;> rw [hs]
  · rw [h'.cell_of_not_covered hc, h.cell_of_not_covered hc]

/-- The second draw collides where the first turned a cell on. -/
theorem Drawn.twice_flag (h : Drawn covered s t) (h' : Drawn covered t u) :
    u.view (.reg 15) = 1 ↔ ∃ (cx : Fin 64) (cy : Fin 32), covered cx cy ∧ s.view (.cell cx cy) = 0 := by
  rw [h'.flag_eq_one]
  exact exists_congr fun cx => exists_congr fun cy => and_congr_right h.covered_cell_eq_one

end twice

/-- Some column of a byte that is not 0 has bit 1. -/
theorem exists_column_of_ne_zero {b : Nat} (hb : b < 256) (h : b ≠ 0) : ∃ c < 8, b / 2 ^ (7 - c) % 2 = 1 := by
  obtain ⟨i, hi⟩ := Nat.exists_testBit_of_ne_zero h
  have hi8 : i < 8 := by
    by_contra hge
    rw [Nat.testBit_lt_two_pow (hb.trans_le (Nat.pow_le_pow_right Nat.two_pos (Nat.not_lt.1 hge)))] at hi
    cases hi
  refine ⟨7 - i, by omega, ?_⟩
  rwa [Nat.testBit_eq_decide_div_mod_eq, decide_eq_true_iff, ← Nat.sub_sub_self (Nat.le_of_lt_succ hi8)] at hi

/-- A sprite that fits covers some cell exactly when one of its bytes is not 0. -/
theorem exists_covered_iff (hf : s.SpriteFits x y n) :
    (∃ (cx : Fin 64) (cy : Fin 32), s.SpriteCoversAt .reject x y n cx cy) ↔
      ∃ r, r < n.toNat ∧ s.view (.byte (s.view .index + r)) ≠ 0 := by
  constructor
  · rintro ⟨cx, cy, c, r, -, hr, -, hbit⟩
    refine ⟨r, hr, fun h0 => ?_⟩
    rw [h0, Nat.zero_div] at hbit
    cases hbit
  · rintro ⟨r, hr, hne⟩
    obtain ⟨c, hc, hbit⟩ := exists_column_of_ne_zero (view_byte_lt s _) hne
    have hn : n ≠ 0 := by rintro rfl; exact absurd hr (Nat.not_lt_zero r)
    obtain ⟨-, hx, hy⟩ := hf.resolve_left hn
    exact ⟨⟨s.view (.reg x) % 64 + c, by omega⟩, ⟨s.view (.reg y) % 32 + r, by omega⟩, c, r, hc, hr, rfl, hbit⟩

/-- A frame of a drawn sprite leaves a register other than `V[15]` alone. -/
theorem Frame.sprite_reg_eq (h : Frame SpriteChanges s t) (hx : x ≠ 15) : t.view (.reg x) = s.view (.reg x) :=
  h.2 _ (by simpa [SpriteChanges] using hx)

/-- A frame of a drawn sprite leaves `I` alone. -/
theorem Frame.sprite_index_eq (h : Frame SpriteChanges s t) : t.view .index = s.view .index :=
  h.2 _ (by simp [SpriteChanges])

/-- A frame of a drawn sprite leaves memory alone. -/
theorem Frame.sprite_byte_eq (h : Frame SpriteChanges s t) (a : Nat) : t.view (.byte a) = s.view (.byte a) :=
  h.2 _ (by simp [SpriteChanges])

/-- A sprite placed by registers other than `V[15]` covers the same cells after it is drawn. -/
theorem Frame.spriteCoversAt_eq (h : Frame SpriteChanges s t) (hx : x ≠ 15) (hy : y ≠ 15) :
    t.SpriteCoversAt policy x y n = s.SpriteCoversAt policy x y n := by
  unfold State.SpriteCoversAt SpriteCovers
  simp only [h.sprite_reg_eq hx, h.sprite_reg_eq hy, h.sprite_index_eq, h.sprite_byte_eq]

/-- A sprite placed by registers other than `V[15]` fits after it is drawn as before. -/
theorem Frame.spriteFits_iff (h : Frame SpriteChanges s t) (hx : x ≠ 15) (hy : y ≠ 15) :
    t.SpriteFits x y n ↔ s.SpriteFits x y n := by
  rw [State.SpriteFits, h.sprite_reg_eq hx, h.sprite_reg_eq hy, h.sprite_index_eq]; rfl

/-- Settles O46: the first draw leaves what places the sprite alone, so the second fits and toggles the same cells. On a
blank screen every covered cell is off, so a collision is a covered cell. -/
theorem drawingTwiceRestoresTheScreen : Obligations.DrawingTwiceRestoresTheScreen := by
  intro x y n s t hx hy hs hexec ht
  have hfits : s.SpriteFits x y n := spriteFits_of_safe hexec ht
  obtain ⟨t', hexec', hframe, hdrawn, -⟩ := exec_drawSprite_of_fits hfits
  cases hexec'.symm.trans hexec
  obtain ⟨u, hexecu, hframeu, hdrawnu, -⟩ := exec_drawSprite_of_fits ((hframe.spriteFits_iff hx hy).2 hfits)
  rw [hframe.spriteCoversAt_eq hx hy] at hdrawnu
  have hflag := hdrawn.twice_flag hdrawnu
  refine ⟨u, hexecu, hframeu.1.trans ht, hdrawn.twice_cell hdrawnu, hflag, fun hblank => ?_⟩
  rw [hflag, ← exists_covered_iff hfits]
  simp only [hblank, and_true]

end Sys2Proof.Machine
end

section
/-! PROOFS. The family of 45_input.md: the key skips and BLOCK-WAIT-FOR-KEY, by the outcomes of the key operand and of the
scan of the latch; and the digit operand of LOAD-FONT-ADDRESS, whose range fault is checked the same way. -/

namespace Sys2Proof.Machine

variable {s : State} {x : RegIdx}

/-! ### The key skips with a key number in range (R140 to R142) -/

/-- SKIP-IF-KEY-PRESSED with a key number in range: the latch is the one at the step's beginning (R141). -/
theorem exec_skipIfKeyPressed_of_lt (h : s.view (.reg x) < 16) :
    exec (.skipIfKeyPressed x) s = .next (s.advance.skipIf s.keys[s.view (.reg x)]) := by
  rw [exec, execSkipIfKeyPressed]
  exact mayRaise_of_ok (by rw [advance_readReg, keyOperand_ok h]; rfl)

/-- SKIP-IF-KEY-NOT-PRESSED with a key number in range (R142). -/
theorem exec_skipIfKeyNotPressed_of_lt (h : s.view (.reg x) < 16) :
    exec (.skipIfKeyNotPressed x) s = .next (s.advance.skipIf (!s.keys[s.view (.reg x)])) := by
  rw [exec, execSkipIfKeyNotPressed]
  exact mayRaise_of_ok (by rw [advance_readReg, keyOperand_ok h]; rfl)

/-- A key is down when its number is 1 (R22). -/
theorem key_eq_true_iff (k : Fin 16) : s.keys[k] = true ↔ s.view (.key k) = 1 := bit_eq_one.symm

theorem not_key_eq_true_iff (k : Fin 16) : (!s.keys[k]) = true ↔ ¬ s.view (.key k) = 1 := by
  rw [Bool.not_eq_true', ← Bool.not_eq_true, key_eq_true_iff]

/-- Settles O47: the encodings come back from the decoder, and each skip tests the key that `V[x]` names. -/
theorem keySkips : Obligations.KeySkips := fun x s =>
  ⟨decodeWord_encode (i := .skipIfKeyPressed x) rfl, decodeWord_encode (i := .skipIfKeyNotPressed x) rfl, fun h =>
    ⟨skip_of_iff (exec_skipIfKeyPressed_of_lt h) (key_eq_true_iff ⟨s.view (.reg x), h⟩),
      skip_of_iff_not (exec_skipIfKeyNotPressed_of_lt h) (not_key_eq_true_iff ⟨s.view (.reg x), h⟩)⟩⟩

/-! ### Key numbers and digits out of range (R140, R164, D9, D10) -/

theorem exec_skipIfKeyPressed_of_ge (h : 16 ≤ s.view (.reg x)) :
    exec (.skipIfKeyPressed x) s = .next (s.raise .keyIndexOutOfRange (some (encode (.skipIfKeyPressed x)))) := by
  rw [exec, execSkipIfKeyPressed]
  exact mayRaise_of_error (by rw [advance_readReg, keyOperand_error h]; rfl)

theorem exec_skipIfKeyNotPressed_of_ge (h : 16 ≤ s.view (.reg x)) :
    exec (.skipIfKeyNotPressed x) s = .next (s.raise .keyIndexOutOfRange (some (encode (.skipIfKeyNotPressed x)))) := by
  rw [exec, execSkipIfKeyNotPressed]
  exact mayRaise_of_error (by rw [advance_readReg, keyOperand_error h]; rfl)

theorem exec_loadFontAddress_of_ge (h : 16 ≤ s.view (.reg x)) :
    exec (.loadFontAddress x) s = .next (s.raise .fontDigitOutOfRange (some (encode (.loadFontAddress x)))) := by
  rw [exec, execLoadFontAddress]
  exact mayRaise_of_error (by rw [advance_readReg, glyphOperand_error h]; rfl)

/-- Settles O48: the operand's check fails before any write, and the record holds the instruction's encoding. -/
theorem keyAndDigitOperandsAreChecked : Obligations.KeyAndDigitOperandsAreChecked := fun _ _ h =>
  ⟨exec_skipIfKeyPressed_of_ge h, exec_skipIfKeyNotPressed_of_ge h, exec_loadFontAddress_of_ge h⟩

/-! ### BLOCK-WAIT-FOR-KEY (R143) -/

/-- With a key down the least one's number is written (R143). -/
theorem exec_blockWaitForKey_of_some {k : Fin 16} (h : s.leastKey = some k) :
    exec (.blockWaitForKey x) s = .next (s.advance.writeReg x (BitVec.ofNat 8 k.val)) := by
  have hleast : s.advance.leastKey = some k := h
  rw [exec, execBlockWaitForKey, runs_eq, hleast]

/-- With no key down the fetch's advance is taken back: the next state is the old one (R143). -/
theorem exec_blockWaitForKey_of_none (h : s.leastKey = none) : exec (.blockWaitForKey x) s = .next s := by
  have hleast : s.advance.leastKey = none := h
  have hpc : s.advance.pc - 2 = s.pc := BitVec.add_sub_cancel s.pc 2
  rw [exec, execBlockWaitForKey, runs_eq, hleast, hpc]; rfl

/-- A key number fits in a byte. -/
theorem key_ofNat_toNat (k : Fin 16) : (BitVec.ofNat 8 k.val).toNat = k.val :=
  (BitVec.toNat_ofNat ..).trans (Nat.mod_eq_of_lt (by omega))

/-- Settles O49: the least key down is the one the scan finds, and without one the step starts over. -/
theorem blockWaitTakesTheLeastKeyOrRetries : Obligations.BlockWaitTakesTheLeastKeyOrRetries := by
  refine fun x s => ⟨decodeWord_encode (i := .blockWaitForKey x) rfl, fun k hk hlt => ?_, fun hnone => ?_⟩
  · have hleast : s.leastKey = some k := leastKey_eq_some (bit_eq_one.1 hk) fun j hj => bit_eq_zero.1 (hlt j hj)
    exact writes_of_toNat (exec_blockWaitForKey_of_some hleast) (key_ofNat_toNat k)
  · have hleast : s.leastKey = none := leastKey_eq_none fun k => bit_eq_zero.1 (hnone k)
    exact ⟨s, exec_blockWaitForKey_of_none hleast, Frame.refl s _⟩

end Sys2Proof.Machine
end

section
/-! PROOFS. The family of 46_timers.md: the three timer instructions, and the decay that ends each completed step. That a
faulting step decays nothing rests on `Effect.fault_cases`: an instruction that latches a fault did nothing else. -/

namespace Sys2Proof.Machine

variable {i : Instr} {s t : State}

/-! ### The decay (R153) -/

/-- One lower, floored at 0: natural subtraction (R153). -/
theorem decayed_toNat (b : Byte) : (decayed b).toNat = b.toNat - 1 := by
  unfold decayed
  split
  · subst b; rfl
  · bv_omega

/-- The decay changes the two timers alone (R153). -/
theorem frame_decay (s : State) : Frame (fun p => p = .dt ∨ p = .st) s s.decay := by
  refine ⟨rfl, fun p hp => ?_⟩
  cases p with
  | dt => exact absurd (.inl rfl) hp
  | st => exact absurd (.inr rfl) hp
  | _ => rfl

/-! ### What an instruction does to the fault latch (R213) -/

@[simp] theorem writeRegsFrom_fault (k : Nat) (bs : List Byte) (s : State) :
    (State.writeRegsFrom k bs s).fault = s.fault := by rw [writeRegsFrom_eq]

/-- An instruction leaves the latch alone, or latches a fault and does nothing else (R213). -/
theorem Effect.fault_cases (h : Effect i s t) : t.fault = s.fault ∨ ∃ c w, t = s.raise c w := by
  cases h with
  | raise c => exact .inr ⟨c, _, rfl⟩
  | loads => exact .inl (writeRegsFrom_fault ..)
  | _ => exact .inl rfl

/-- A fetched instruction is what the fetched word decodes to (R180). -/
theorem fetch_decode_of_fetchInstr (h : s.fetchInstr = .ok i) : ∃ w, s.fetch = some w ∧ decodeWord w = .ok i := by
  rcases fetchInstr_cases s with ⟨-, he⟩ | ⟨w, hw, ⟨j, hd, hj⟩ | ⟨e, -, he⟩⟩
  · cases he.symm.trans h
  · cases hj.symm.trans h; exact ⟨w, hw, hd⟩
  · cases he.symm.trans h

/-- Settles O9: a fault of fetch, decode or execution is latched over the state at the step's beginning; otherwise the
latch is still clear after the instruction, and the decay follows. -/
theorem timersDecayOncePerStep : Obligations.TimersDecayOncePerStep := by
  intro s t hstep
  obtain ⟨hs, ⟨c, w, -, rfl⟩ | ⟨i, u, hi, hu, rfl⟩⟩ := step_cases hstep
  · exact ⟨nofun, fun _ => ⟨rfl, rfl⟩⟩
  rcases (exec_cases hu).fault_cases with hf | ⟨c, w, rfl⟩
  · have hsafe : u.fault = none := hf.trans hs
    obtain ⟨w, hw, hd⟩ := fetch_decode_of_fetchInstr hi
    rw [if_pos hsafe]
    exact ⟨fun _ => ⟨w, i, u, hw, hd, hu, decayed_toNat u.dt, decayed_toNat u.st, frame_decay u⟩,
      fun hfault => absurd hsafe hfault⟩
  · exact ⟨nofun, fun _ => ⟨rfl, rfl⟩⟩

/-! ### The timer instructions (R150 to R152) -/

/-- An instruction whose next state is the advanced one but for the number `n` in the piece of state `q`. -/
theorem writes_of_view {q : Part} {n : Nat} (h : exec i s = .next t) (hfault : t.fault = s.fault) (hq : q ≠ .pc)
    (hview : ∀ p, t.view p = if p = q then n else s.advance.view p) :
    ∃ t, exec i s = .next t ∧ Frame (fun p => p = .pc ∨ p = q) s t ∧
      t.view q = n ∧ t.view .pc = (s.view .pc + 2) % 65536 := by
  refine ⟨t, h, ⟨hfault, fun p hp => ?_⟩, ?_, ?_⟩
  · obtain ⟨hpc, hne⟩ := not_or.1 hp
    rw [hview, if_neg hne, view_advance, if_neg hpc]
  · rw [hview, if_pos rfl]
  · rw [hview, if_neg hq.symm, view_advance, if_pos rfl, pc_add_two_toNat]

section exec
variable (x : RegIdx) (s : State)

theorem exec_loadDelay : exec (.loadDelay x) s = .next (s.advance.writeReg x s.dt) := rfl

theorem exec_setDelay : exec (.setDelay x) s = .next (s.advance.setDelayTimer (s.readReg x)) := rfl

theorem exec_setSound : exec (.setSound x) s = .next (s.advance.setSoundTimer (s.readReg x)) := rfl

end exec

/-- Settles O50: the encodings come back from the decoder, and each instruction writes one piece of state after the
advance. -/
theorem timerInstructions : Obligations.TimerInstructions := fun x s =>
  ⟨decodeWord_encode (i := .loadDelay x) rfl, decodeWord_encode (i := .setDelay x) rfl,
    decodeWord_encode (i := .setSound x) rfl,
    writes_of_toNat (exec_loadDelay x s) rfl,
    writes_of_view (exec_setDelay x s) rfl (by decide) fun p => view_setDelayTimer s.advance p _,
    writes_of_view (exec_setSound x s) rfl (by decide) fun p => view_setSoundTimer s.advance p _⟩

end Sys2Proof.Machine
end

section
/-! PROOFS. The family of 47_memory_transfer.md: the index instructions, and the transfers in range (their range fault
is in the family of 20_memory.md). A completed store is `State.stored`, for any list of bytes, and a completed load of
registers is `State.loaded`; each is framed once. -/

namespace Sys2Proof.Machine

variable {i : Instr} {s : State} {x : RegIdx}

/-! ### The index instructions (R161, R163, R164) -/

theorem exec_loadIndex (nnn : Addr) (s : State) :
    exec (.loadIndex nnn) s = .next (s.advance.setIndex (zext16 nnn)) := rfl

theorem exec_addToIndex (x : RegIdx) (s : State) :
    exec (.addToIndex x) s = .next (s.advance.setIndex (s.index + zext16Byte (s.readReg x))) := rfl

/-- LOAD-FONT-ADDRESS of a digit in range (R164). -/
theorem exec_loadFontAddress_of_lt (h : s.view (.reg x) < 16) :
    exec (.loadFontAddress x) s =
      .next (s.advance.setIndex (BitVec.ofNat 16 (Config.fontBase + 5 * s.view (.reg x)))) := by
  rw [exec, execLoadFontAddress]
  exact mayRaise_of_ok (by rw [advance_readReg, glyphOperand_ok h]; rfl)

/-- An instruction that writes a word of value `n` to `I`. -/
theorem setsIndex_of_toNat {w : Word} {n : Nat} (h : exec i s = .next (s.advance.setIndex w)) (hw : w.toNat = n) :
    ∃ t, exec i s = .next t ∧ Frame (fun p => p = .pc ∨ p = .index) s t ∧
      t.view .index = n ∧ t.view .pc = (s.view .pc + 2) % 65536 :=
  writes_of_view h rfl (by decide) fun p => by rw [view_setIndex, hw]

/-- `I + V[x]` wraps at 16 bits (R163). -/
theorem word_add_zext16Byte_toNat (w : Word) (b : Byte) : (w + zext16Byte b).toNat = (w.toNat + b.toNat) % 65536 := by
  rw [BitVec.toNat_add, zext16Byte_toNat]

/-- A number in range is the value of its bit vector. -/
theorem ofNat_toNat_of_lt {w n : Nat} (h : n < 2 ^ w) : (BitVec.ofNat w n).toNat = n :=
  (BitVec.toNat_ofNat ..).trans (Nat.mod_eq_of_lt h)

/-- A glyph's address fits in `I` (R164). -/
theorem glyphAddress_toNat {d : Nat} (h : d < 16) : (BitVec.ofNat 16 (Config.fontBase + 5 * d)).toNat = 0x050 + 5 * d :=
  ofNat_toNat_of_lt (show 0x050 + 5 * d < 2 ^ 16 by omega)

/-- Settles O51: the encodings come back from the decoder, and each instruction writes `I` alone after the advance. -/
theorem indexInstructions : Obligations.IndexInstructions := fun nnn x s =>
  ⟨decodeWord_encode (i := .loadIndex nnn) rfl, decodeWord_encode (i := .addToIndex x) rfl,
    setsIndex_of_toNat (exec_loadIndex nnn s) (zext16_toNat nnn),
    setsIndex_of_toNat (exec_addToIndex x s) (word_add_zext16Byte_toNat ..)⟩

/-- Settles O52: the digit's check succeeds, and the glyph's address is the value written to `I`. -/
theorem fontAddressOfADigit : Obligations.FontAddressOfADigit := fun x s =>
  ⟨decodeWord_encode (i := .loadFontAddress x) rfl, fun h =>
    have hlt : s.view (.reg x) < 16 := Nat.lt_succ_of_le h
    setsIndex_of_toNat (exec_loadFontAddress_of_lt hlt) (glyphAddress_toNat hlt)⟩

/-! ### The stores in range (R165, R166) -/

/-- The next state of a completed store: the bytes lie at `I` upward, and `PC` is advanced. -/
def State.stored (s : State) (bs : List Byte) : State :=
  { s.advance with mem := s.mem.writeAll (s.view .index) bs }

/-- A BCD store in range (R165). -/
theorem exec_storeBcdDigits_ok (h : s.view .index + 2 ≤ 4095) :
    exec (.storeBcdDigits x) s = .next (s.stored (bcdDigits (s.readReg x))) := by
  rw [exec, execStoreBcdDigits]
  exact mayRaise_of_ok (writeBytes_ok (.inr (Nat.succ_le_succ h)))

theorem stored_view_pc (s : State) (bs : List Byte) : (s.stored bs).view .pc = (s.view .pc + 2) % 65536 :=
  pc_add_two_toNat s

/-- A completed store changes `PC` and the bytes at `I` upward, whatever the list. -/
theorem frame_stored {P : Part → Prop} {bs : List Byte} (hpc : P .pc)
    (hbyte : ∀ k < bs.length, P (.byte (s.view .index + k))) : Frame P s (s.stored bs) := by
  refine ⟨rfl, fun p hp => ?_⟩
  cases p with
  | pc => exact absurd hpc hp
  | byte a =>
    have hout : a < s.view .index ∨ s.view .index + bs.length ≤ a := by
      by_contra hin
      have hP := hbyte (a - s.view .index) (by omega)
      rw [Nat.add_sub_of_le (by omega)] at hP
      exact hp hP
    rw [State.stored, view_setMem]
    dsimp only
    rw [Memory.read_writeAll_outside hout]; rfl
  | _ => rfl

/-- After a completed store in range, the byte at `I + k` is the list's byte `k` (R43). -/
theorem stored_view_byte {bs : List Byte} (hm : s.mem.wf = true) (ha : s.view .index + bs.length ≤ 4096) {k : Nat}
    (hk : k < bs.length) : (s.stored bs).view (.byte (s.view .index + k)) = bs[k].toNat := by
  rw [view_byte _ (by omega), State.stored, Memory.read_writeAll_inside hm ha hk]

/-- Settles O53: the three bytes stored at `I` upward are the digits, each small enough for a byte. -/
theorem bcdStoresThreeDigits : Obligations.BcdStoresThreeDigits := by
  refine fun x s => ⟨decodeWord_encode (i := .storeBcdDigits x) rfl, fun hm ha => ?_⟩
  have hbyte {k : Nat} (hk : k < 3) := stored_view_byte (bs := bcdDigits (s.readReg x)) hm (Nat.succ_le_succ ha) hk
  have hlt : s.view (.reg x) < 256 := (s.readReg x).isLt
  refine ⟨_, exec_storeBcdDigits_ok ha, frame_stored (.inl rfl) fun k hk => .inr ⟨k, hk, rfl⟩, ?_, ?_, ?_,
    stored_view_pc s _⟩
  · exact (hbyte (k := 0) (by decide)).trans (ofNat_toNat_of_lt (by omega))
  · exact (hbyte (k := 1) (by decide)).trans (ofNat_toNat_of_lt (by omega))
  · exact (hbyte (k := 2) (by decide)).trans (ofNat_toNat_of_lt (by omega))

/-- Settles O54: the bytes stored at `I` upward are the registers' values. -/
theorem storeRegistersWritesARange : Obligations.StoreRegistersWritesARange := by
  refine fun x s => ⟨decodeWord_encode (i := .storeRegistersToMemory x) rfl, fun hm ha => ?_⟩
  have hlen := readRegsUpTo_length (s := s) x
  refine ⟨s.stored (s.readRegsUpTo x), exec_storeRegistersToMemory_ok ha,
    frame_stored (.inl rfl) fun k hk => .inr ⟨k, by omega, rfl⟩, fun k hk => ?_, stored_view_pc s _⟩
  rw [stored_view_byte hm (by omega) (by omega), readRegsUpTo_getElem]; rfl

/-! ### The load in range (R167) -/

/-- The bytes at `I` to `I + x`. -/
def State.bytesUpTo (s : State) (x : RegIdx) : List Byte :=
  (List.range (x.toNat + 1)).map fun k => s.mem.read (s.view .index + k)

@[simp] theorem bytesUpTo_length (s : State) (x : RegIdx) : (s.bytesUpTo x).length = x.toNat + 1 := by
  simp [State.bytesUpTo]

/-- The next state of a completed load: the bytes lie in `V[0]` upward, and `PC` is advanced. -/
def State.loaded (s : State) (bs : List Byte) : State := State.writeRegsFrom 0 bs s.advance

/-- A load of registers in range (R167). -/
theorem exec_loadRegistersFromMemory_ok (h : s.view .index + x.toNat ≤ 4095) :
    exec (.loadRegistersFromMemory x) s = .next (s.loaded (s.bytesUpTo x)) := by
  have hread : s.advance.readBytes (s.advance.effectiveAddr 0) (x.toNat + 1) = .ok (s.bytesUpTo x) :=
    readBytes_ok (.inr (Nat.succ_le_succ h))
  rw [exec, execLoadRegistersFromMemory]
  exact mayRaise_of_ok (by rw [hread]; rfl)

theorem loaded_view_pc (s : State) (bs : List Byte) : (s.loaded bs).view .pc = (s.view .pc + 2) % 65536 := by
  rw [← pc_add_two_toNat, State.loaded, State.view, writeRegsFrom_pc, advance_pc]

/-- After a completed load a register holds its byte of the list, or its old value past the list's end. -/
theorem loaded_readReg {bs : List Byte} (hlen : bs.length ≤ 16) (z : RegIdx) :
    (s.loaded bs).readReg z = bs.getD z.toNat (s.readReg z) := by
  rw [State.loaded, writeRegsFrom_readReg _ _ (by omega), if_pos (Nat.zero_le _), Nat.sub_zero, advance_readReg]

/-- A completed load changes `PC` and as many registers as there are bytes. -/
theorem frame_loaded {P : Part → Prop} {bs : List Byte} (hlen : bs.length ≤ 16) (hpc : P .pc)
    (hreg : ∀ k : RegIdx, k.toNat < bs.length → P (.reg k)) : Frame P s (s.loaded bs) := by
  refine ⟨writeRegsFrom_fault .., fun p hp => ?_⟩
  cases p with
  | pc => exact absurd hpc hp
  | reg z =>
    have hz : bs.length ≤ z.toNat := Nat.le_of_not_lt fun hlt => hp (hreg z hlt)
    rw [State.view, loaded_readReg hlen, List.getD_eq_default _ _ hz]; rfl
  | _ => rw [State.loaded, writeRegsFrom_eq]; rfl

/-- After a completed load, `V[k]` is the list's byte `k`. -/
theorem loaded_view_reg {bs : List Byte} (hlen : bs.length ≤ 16) {k : RegIdx} (hk : k.toNat < bs.length) :
    (s.loaded bs).view (.reg k) = bs[k.toNat].toNat := by
  rw [State.view, loaded_readReg hlen, List.getD_eq_getElem _ _ hk]

/-- Byte `k` of a load in range is the one at `I + k`. -/
theorem bytesUpTo_toNat (ha : s.view .index + x.toNat ≤ 4095) {k : Nat} (hk : k < (s.bytesUpTo x).length) :
    (s.bytesUpTo x)[k].toNat = s.view (.byte (s.view .index + k)) := by
  rw [bytesUpTo_length] at hk
  rw [view_byte _ (by omega)]
  simp [State.bytesUpTo]

/-- Settles O55: the bytes loaded into `V[0]` upward are those at `I` upward. -/
theorem loadRegistersReadsARange : Obligations.LoadRegistersReadsARange := by
  refine fun x s => ⟨decodeWord_encode (i := .loadRegistersFromMemory x) rfl, fun ha => ?_⟩
  have hlen := bytesUpTo_length s x
  have hx := x.isLt
  refine ⟨_, exec_loadRegistersFromMemory_ok ha,
    frame_loaded (by omega) (.inl rfl) fun k hk => .inr ⟨k, by omega, rfl⟩, fun k hk => ?_, loaded_view_pc s _⟩
  rw [loaded_view_reg (by omega) (by omega), bytesUpTo_toNat ha]

end Sys2Proof.Machine
end

section
/-! PROOFS. The families of 48_noops.md and 50_step_cycle.md: SYS, what `step` answers, and the host's moves between
steps. A property that every move keeps is kept by every schedule (`run_induction`, an induction over the moves). -/

namespace Sys2Proof.Machine

variable {i : Instr} {s t : State} {h h' : Session} {m : Move} {rom : List Byte}

/-! ### SYS (R175) -/

/-- SYS answers the fetch's advance. -/
theorem exec_sys (nnn : Addr) (s : State) : exec (.sys nnn) s = .next s.advance := rfl

/-- The advance changes `PC` alone (R180). -/
theorem frame_advance (s : State) : Frame (· = .pc) s s.advance := frame_jumpTo s (s.pc + 2)

/-- Settles O24: the decoder's rule for `0nnn`, and SYS leaves the advance as it is. -/
theorem sysHasNoEffect : Obligations.SysHasNoEffect :=
  fun nnn s => ⟨decodeWord_sys, s.advance, exec_sys nnn s, frame_advance s, pc_add_two_toNat s⟩

/-! ### What `step` answers (R180 to R183) -/

/-- A latched fault allows no step (R183). -/
theorem step_of_fault {r : FaultRecord} (hs : s.fault = some r) : step s = .fault (.stopped r) := by
  rw [step, hs]

/-- From a state with no fault, a fetched instruction is run and the step is ended (R180). -/
theorem step_of_fetchInstr_ok (hs : Safe s) (hi : s.fetchInstr = .ok i) : step s = finishStep (exec i s) := by
  unfold Safe at hs
  rw [step, hs, hi]

/-- A fetched word that decodes gives its instruction (R180). -/
theorem fetchInstr_of_decode_ok {w : Word} (hf : s.fetch = some w) (hd : decodeWord w = .ok i) :
    s.fetchInstr = .ok i := by
  simp only [State.fetchInstr, hf, hd]

/-- Settles O3: the latch is what `step` looks at first. -/
theorem faultedMachineTakesNoStep : Obligations.FaultedMachineTakesNoStep := fun _ _ => step_of_fault

/-- Settles O2: the two bytes are the fetched word, what it decodes to is well-formed, and the end of the step is the
decay. -/
theorem stepRunsTheFetchedInstruction : Obligations.StepRunsTheFetchedInstruction := by
  intro s w i hs hpc hw hd
  have hi : s.fetchInstr = .ok i := fetchInstr_of_decode_ok (fetch_of_view_bytes hpc hw) hd
  refine ⟨(encodeInvertsDecode w i hd).1, ?_⟩
  rw [step_of_fetchInstr_ok hs hi]
  cases exec i s with
  | next t => rfl
  | fault r => rfl
  | refused r => rfl

/-- Settles O4: a fault of fetch or decode is latched, and an instruction with `SP` at most 16 answers a next state. -/
theorem unfaultedMachineHasAStep : Obligations.UnfaultedMachineHasAStep := by
  intro s hs hsp
  cases hi : s.fetchInstr with
  | error e => exact ⟨_, step_of_fetchInstr_error hs hi⟩
  | ok i =>
    obtain ⟨u, hu⟩ := exec_answers i s hsp
    exact ⟨_, by rw [step_of_fetchInstr_ok hs hi, hu, finishStep]⟩

/-! ### Sessions and the invariant (R186 to R193) -/

/-- A load that answers is of a ROM that fits, and stores its bytes (R232, R233). -/
theorem hostLoad_cases (e : s.hostLoad rom = .next t) :
    rom.length ≤ 3584 ∧ t = { s with mem := s.mem.writeAll Config.progBase rom } := by
  by_cases hl : rom.length ≤ 3584
  · rw [hostLoad_ok hl] at e; cases e; exact ⟨hl, rfl⟩
  · rw [hostLoad_tooLong (Nat.lt_of_not_le hl)] at e; cases e

/-- A ROM load writes inside memory only, and keeps the invariant. -/
theorem hostLoad_invariant (hs : Invariant s) (e : s.hostLoad rom = .next t) : Invariant t := by
  obtain ⟨hmem, hrest⟩ := hs
  obtain ⟨hl, rfl⟩ := hostLoad_cases e
  exact ⟨Memory.wf_writeAll hmem (Nat.add_le_add_left hl 0x200), hrest⟩

/-- Every move keeps the invariant: the load and the step by their own lemmas, and the others write nothing that it
speaks of. -/
theorem act_invariant (hs : Invariant h.machine) (e : h.act m = .next h') : Invariant h'.machine := by
  obtain ⟨rom, t, -, -, ht, rfl⟩ | ⟨t, -, ht, rfl⟩ | ⟨latch, -, rfl⟩ | ⟨k, pressed, -, rfl⟩ | ⟨-, rfl⟩ := act_cases e
  · exact hostLoad_invariant hs ht
  · exact stepKeepsTheInvariant _ _ hs ht
  · exact hs
  · exact hs
  · exact hs

/-- What every move keeps, every schedule that runs to its end keeps. -/
theorem run_induction {P : Session → Prop} (hact : ∀ {h h' m}, P h → h.act m = .next h' → P h') {ms : List Move}
    (hP : P h) (e : h.run ms = .next h') : P h' := by
  induction ms generalizing h with
  | nil => cases e; exact hP
  | cons m ms ih =>
    obtain ⟨g, hg, hrest⟩ := run_cons.1 e
    exact ih (hact hP hg) hrest

/-- Settles O16, by induction over the moves. -/
theorem everyScheduleKeepsTheInvariant : Obligations.EveryScheduleKeepsTheInvariant :=
  fun _ _ _ hs e => run_induction (P := fun h => Invariant h.machine) act_invariant hs e

/-! ### The frames of the host's moves (R187, R188) -/

theorem frame_hostKeys (s : State) (latch : Vector Bool 16) :
    Frame (fun p => ∃ j, p = .key j) s (s.hostKeys latch) := by
  refine ⟨rfl, fun p hp => ?_⟩
  cases p with
  | key j => exact absurd ⟨j, rfl⟩ hp
  | _ => rfl

theorem view_hostKey (s : State) (k : Fin 16) (b : Bool) (p : Part) :
    (s.hostKey k b).view p = if p = .key k then bit b else s.view p := by
  cases p with
  | key j => simp [State.view, Vector.getElem_set, apply_ite bit, Fin.ext_iff, eq_comm]
  | _ => rfl

/-- A press or a release changes its own key alone (R187). -/
theorem frame_hostKey (s : State) (k : Fin 16) (b : Bool) : Frame (· = .key k) s (s.hostKey k b) :=
  ⟨rfl, fun p hp => by rw [view_hostKey, if_neg hp]⟩

theorem frame_hostFrameAck (s : State) : Frame (· = .redraw) s s.hostFrameAck := by
  refine ⟨rfl, fun p hp => ?_⟩
  cases p with
  | redraw => exact absurd rfl hp
  | _ => rfl

/-- Settles O59: the frame of each move of the host's, and a session does with a move what its machine does. -/
theorem hostTouchesOnlyItsOwn : Obligations.HostTouchesOnlyItsOwn :=
  ⟨fun s latch k b => ⟨⟨frame_hostKeys s latch, rfl⟩,
      ⟨frame_hostKey s k b, (view_hostKey s k b (.key k)).trans (if_pos rfl)⟩, frame_hostFrameAck s, rfl⟩,
    fun _ _ _ _ => ⟨rfl, rfl, rfl, fun _ => congrArg Session.afterRun, fun _ => congrArg Session.afterRun⟩⟩

end Sys2Proof.Machine
end

section
/-! PROOFS. The family of 60_exceptions.md: which instructions fault, and what a fault records. An instruction's own
fault records its encoding; that this is the fetched word rests on no instruction of families 5 and 9 faulting (log 8). -/

namespace Sys2Proof.Machine

variable {i : Instr} {s t : State} {c : Cause} {w : Word}

/-! ### An instruction's own fault (R200, R213) -/

/-- An instruction that latches a fault can raise its cause, and did nothing else (R213). -/
theorem Effect.raise_of_fault {r : FaultRecord} (h : Effect i s t) (hs : Safe s) (hr : t.fault = some r) :
    CanRaise i s r.cause ∧ t = s.raise r.cause (some (encode i)) := by
  cases h with
  | raise c hc => cases hr; exact ⟨hc, rfl⟩
  | loads => rw [writeRegsFrom_fault] at hr; cases hs.symm.trans hr
  | _ => cases hs.symm.trans hr

/-- Settles O8: what an instruction that latches a fault can raise. -/
theorem onlyTheListedInstructionsFault : Obligations.OnlyTheListedInstructionsFault :=
  fun _ _ _ _ hs h hr => ((exec_cases h).raise_of_fault hs hr).1

/-! ### The record (R23, R213) -/

/-- No instruction raises the fault of a failed fetch (R201). -/
theorem CanRaise.cause_ne (h : CanRaise i s c) : c ≠ .fetchOutOfRange := by
  rcases h with ⟨-, rfl, -⟩ | ⟨-, rfl, -⟩ | ⟨-, rfl | rfl⟩ | ⟨-, rfl⟩ | ⟨x, -, rfl, -⟩ | ⟨x, -, rfl, -⟩ <;> decide

/-- No instruction of families 5 and 9, whose opcodes ignore a nibble, can fault (R63, R200). -/
theorem CanRaise.opField_ne (h : CanRaise i s c) : opField (encode i) ≠ 0x5 ∧ opField (encode i) ≠ 0x9 := by
  rcases h with ⟨⟨nnn, rfl⟩, -⟩ | ⟨rfl, -⟩ | ⟨⟨x, y, n, rfl⟩, -⟩ | ⟨⟨x, rfl | rfl | rfl⟩, -⟩ | ⟨x, rfl | rfl, -⟩ |
    ⟨x, rfl, -⟩
  case inr.inl => decide
  all_goals simp only [encode, opField_NNN, opField_XKK, opField_XYN]; decide

/-- Outside families 5 and 9 a decoded instruction encodes to its own word (R67). -/
theorem encode_eq_of_decode (hd : decodeWord w = .ok i) (h : opField (encode i) ≠ 0x5 ∧ opField (encode i) ≠ 0x9) :
    encode i = w := by
  have henc : encode i = reassembled w := (encodeInvertsDecode w i hd).2
  by_cases hw : opField w = 0x5 ∨ opField w = 0x9
  · rw [reassembled_of_eq hw] at henc
    rw [henc, opField_XYN] at h
    exact absurd hw (not_or.2 h)
  · exact henc.trans (reassembled_of_ne (not_or.1 hw))

/-- A fault of fetch or decode records the fetched word, absent exactly when the fetch failed (R201 to R203). -/
theorem fetchInstr_error_record {o : Option Word} (h : s.fetchInstr = .error (c, o)) :
    o = s.fetch ∧ (c = .fetchOutOfRange ↔ s.fetch = none) := by
  rcases fetchInstr_cases s with ⟨hf, he⟩ | ⟨w, hf, ⟨j, -, hj⟩ | ⟨e, -, he⟩⟩
  · cases he.symm.trans h; simp [hf]
  · cases hj.symm.trans h
  · cases he.symm.trans h
    cases e <;> simp [hf, causeOfDecodeError]

/-- EVERY FAULT A STEP LATCHES is a `raise` over the state at the step's beginning, with the fetched word. -/
theorem step_raise {r : FaultRecord} (h : step s = .next t) (hr : t.fault = some r) :
    ∃ c, t = s.raise c s.fetch ∧ (c = .fetchOutOfRange ↔ s.fetch = none) := by
  obtain ⟨hs, ⟨c, o, hi, rfl⟩ | ⟨i, u, hi, hu, rfl⟩⟩ := step_cases h
  · obtain ⟨rfl, hc⟩ := fetchInstr_error_record hi
    exact ⟨c, rfl, hc⟩
  · split at hr
    · cases ‹u.fault = none›.symm.trans hr
    · obtain ⟨hraise, hu'⟩ := (exec_cases hu).raise_of_fault hs hr
      obtain ⟨w, hf, hd⟩ := fetch_decode_of_fetchInstr hi
      rw [encode_eq_of_decode hd hraise.opField_ne, ← hf] at hu'
      exact ⟨r.cause, by rwa [if_neg ‹_›], by simp [hraise.cause_ne, hf]⟩

/-- Settles O7: the four parts are read off the `raise`. -/
theorem faultEntryIsPrecise : Obligations.FaultEntryIsPrecise := by
  intro s t r h hr
  obtain ⟨c, rfl, hc⟩ := step_raise h hr
  cases hr
  exact ⟨rfl, rfl, rfl, hc⟩

end Sys2Proof.Machine
end

section
/-! PROOFS. The family of 70_reset_and_hazards.md: the ROM load, what it writes and when a session allows it. That no
load or step stands before a load follows from `run_induction`: no move gives back the right to load. -/

namespace Sys2Proof.Machine

variable {s t : State} {h h' : Session} {m : Move} {rom : List Byte}

/-! ### What a load writes (R232) -/

/-- Consecutive stores change those bytes alone (R42). -/
theorem frame_writeAll (s : State) (a : Nat) (bs : List Byte) :
    Frame (fun p => ∃ k, k < bs.length ∧ p = .byte (a + k)) s { s with mem := s.mem.writeAll a bs } := by
  refine ⟨rfl, fun p hp => ?_⟩
  cases p with
  | byte b =>
    have hout : b < a ∨ a + bs.length ≤ b := by
      by_contra hin
      exact hp ⟨b - a, by omega, by rw [Nat.add_sub_of_le (by omega)]⟩
    rw [view_setMem]
    dsimp only
    rw [Memory.read_writeAll_outside hout]; rfl
  | _ => rfl

/-- After consecutive stores inside memory, byte `k` of the list is at its address (R43). -/
theorem view_writeAll_inside {a k : Nat} {bs : List Byte} (hm : s.mem.wf = true) (ha : a + bs.length ≤ 4096)
    (hk : k < bs.length) : ({ s with mem := s.mem.writeAll a bs } : State).view (.byte (a + k)) = bs[k].toNat := by
  rw [view_byte _ (by omega), Memory.read_writeAll_inside hm ha hk]

/-! ### When a session loads (R193, R232, D24) -/

theorem act_load_of_not_mayLoad (hl : h.mayLoad = false) : h.act (.load rom) = .refused .loadNotAllowed := by
  rw [Session.act, if_neg (by rw [hl]; decide)]

theorem act_load_of_mayLoad (hl : h.mayLoad = true) :
    h.act (.load rom) = Session.afterRun (h.machine.hostLoad rom) := by
  rw [Session.act, if_pos hl]

/-- Everything a move does to the right to load: it ends it, or it is neither a load nor a step and leaves it. -/
theorem act_mayLoad_cases (e : h.act m = .next h') :
    h'.mayLoad = false ∨ h'.mayLoad = h.mayLoad ∧ m ≠ .step ∧ ∀ rom, m ≠ .load rom := by
  obtain ⟨rom, t, -, -, -, rfl⟩ | ⟨t, -, -, rfl⟩ | ⟨latch, rfl, rfl⟩ | ⟨k, pressed, rfl, rfl⟩ | ⟨rfl, rfl⟩ :=
    act_cases e
  · exact .inl rfl
  · exact .inl rfl
  · exact .inr ⟨rfl, nofun, nofun⟩
  · exact .inr ⟨rfl, nofun, nofun⟩
  · exact .inr ⟨rfl, nofun, nofun⟩

/-- A load or a step ends loading. -/
theorem mayLoad_after_load_or_step (e : h.act m = .next h') (hm : m = .step ∨ ∃ rom, m = .load rom) :
    h'.mayLoad = false := by
  obtain hfalse | ⟨-, hstep, hload⟩ := act_mayLoad_cases e
  · exact hfalse
  · exact (hm.elim hstep fun ⟨rom, hrom⟩ => hload rom hrom).elim

/-- No move gives back the right to load. -/
theorem act_mayLoad_eq_false (hl : h.mayLoad = false) (e : h.act m = .next h') : h'.mayLoad = false := by
  obtain hfalse | ⟨hsame, -⟩ := act_mayLoad_cases e
  · exact hfalse
  · exact hsame.trans hl

/-- A load or a step would have ended loading for good, and the load after it would be refused. -/
theorem ne_load_or_step_of_before_load {before after : List Move}
    (e : h.run (before ++ .load rom :: after) = .next h') (hm : m ∈ before) : m ≠ .step ∧ ∀ rom', m ≠ .load rom' := by
  obtain ⟨earlier, later, rfl⟩ := List.append_of_mem hm
  obtain ⟨g, hbefore, hfrom⟩ := run_append.1 e
  obtain ⟨g₁, -, hat⟩ := run_append.1 hbefore
  obtain ⟨g₂, hact, hlater⟩ := run_cons.1 hat
  obtain ⟨g', hload, -⟩ := run_cons.1 hfrom
  obtain hfalse | ⟨-, hne⟩ := act_mayLoad_cases hact
  · have hg : g.mayLoad = false := run_induction (P := (·.mayLoad = false)) act_mayLoad_eq_false hfalse hlater
    cases (act_load_of_not_mayLoad hg).symm.trans hload
  · exact hne

/-- Settles O58: what a load writes, then what each move does to the right to load, then the schedules. -/
theorem romLoadsOnceAt0x200 : Obligations.RomLoadsOnceAt0x200 := by
  refine ⟨fun rom s hmem => ⟨fun hl => ?_, hostLoad_tooLong⟩, fun _ _ => act_load_of_not_mayLoad,
    fun h rom hm => ⟨fun hl => ?_, fun hl => ?_⟩, fun _ _ _ => mayLoad_after_load_or_step,
    fun _ _ _ e hm => act_mayLoad_eq_false hm e, fun _ _ _ _ _ e _ => ne_load_or_step_of_before_load e⟩
  · exact ⟨_, hostLoad_ok hl, frame_writeAll s 0x200 rom,
      fun k hk => view_writeAll_inside hmem (Nat.add_le_add_left hl 0x200) hk⟩
  · exact ⟨_, hostLoad_ok hl, by rw [act_load_of_mayLoad hm, hostLoad_ok hl]; rfl⟩
  · rw [act_load_of_mayLoad hm, hostLoad_tooLong hl]; rfl

end Sys2Proof.Machine
end
